-- ==== Sys2Proof/Word.lean ====
section
/-! DEFINITION. The widths the spec gives its values (R5, R82): bytes, 32-bit registers, 64-bit pairs. -/

namespace Sys2Proof

/-- Eight bits: a predicate register (R50) and the unit of addressing (R80). -/
abbrev Byte := BitVec 8

/-- Thirty-two bits: a general register (R10), a control register (R20), an address (R80). -/
abbrev Word := BitVec 32

/-- Sixty-four bits: a register pair (R13, R23) and the three counters (R55, R58, R62). -/
abbrev DWord := BitVec 64

end Sys2Proof
end

