-- ==== Sys2Proof/Syntax.lean ====
section
/-! DEFINITION. The abstract syntax: one constructor per row of spec/opcode_table.json, with register operands as the
assembly level names them (R101, R102, R107, D1). -/

namespace Sys2Proof

/-- A general register number, 0 to 31 (R10, R102). A pair operand R(2k+1):(2k) is named by its even number 2k (R13, R101). -/
abbrev Reg := Fin 32

/-- A predicate register number, 0 to 3 (R50, R102). -/
abbrev PReg := Fin 4

/-- The thirty-two control register numbers C0 to C31 by name; `c5` and `c20` to `c29` are the reserved ones (R21, R25). -/
inductive CReg where
  | sa0 | lc0 | sa1 | lc1 | p30 | c5 | m0 | m1
  | usr | pc | ugp | gp | cs0 | cs1 | upcycleLo | upcycleHi
  | frameLimit | frameKey | pktcountLo | pktcountHi | c20 | c21 | c22 | c23
  | c24 | c25 | c26 | c27 | c28 | c29 | utimerLo | utimerHi
  deriving DecidableEq, Repr

/-- The register transfer instructions (R120 to R124). In the two pair forms an operand is the even-numbered register of
its pair (R101, R105). -/
inductive Instr where
  /-- `Rd = Cs` (R120). -/
  | rdCs (d : Reg) (s : CReg)
  /-- `Cd = Rs` (R121). -/
  | cdRs (d : CReg) (s : Reg)
  /-- `Rdd = Css` (R122). -/
  | rddCss (d : Reg) (s : CReg)
  /-- `Cdd = Rss` (R123). -/
  | cddRss (d : CReg) (s : Reg)
  /-- `Rd = Ps` (R124). -/
  | rdPs (d : Reg) (s : PReg)
  deriving DecidableEq, Repr

/-- Why bytes are no instruction; the decoder answers with one of these names. -/
inductive DecodeError where
  /-- Fewer than the four bytes of an instruction word are left (R106). -/
  | truncated
  /-- The word matches no row of the opcode table (R105). -/
  | unknownWord (w : Word)
  /-- A pair field holds an odd number, which names no pair (R13, R23, R105). -/
  | oddPair (w : Word)
  /-- The parse bits 00: the word holds two sub-instructions, a duplex, for which the spec has no row (R106). -/
  | duplex (w : Word)
  /-- The parse bits do not fit the word's place: 11 before the last word, 01 or 10 in the last (R106). -/
  | badFraming (w : Word)
  /-- A packet of more than four words (R106). -/
  | packetTooLong
  /-- The parse bits 10 in the first or second word: the packet ends a hardware loop (R106), and "a model must not invent the
  loop-end step" (R169). -/
  | loopEnd (w : Word)
  deriving DecidableEq, Repr

end Sys2Proof
end

