-- ==== Sys2Proof/Machine/Registers.lean ====
section
/-! DEFINITION. The numbering of the control registers (R21, R101) and the pairing of registers (R13, R23). -/

namespace Sys2Proof

/-- The number n of the alias Cn (R21, R101). -/
def CReg.num : CReg → Fin 32
  | .sa0 => 0 | .lc0 => 1 | .sa1 => 2 | .lc1 => 3 | .p30 => 4 | .c5 => 5 | .m0 => 6 | .m1 => 7
  | .usr => 8 | .pc => 9 | .ugp => 10 | .gp => 11 | .cs0 => 12 | .cs1 => 13 | .upcycleLo => 14 | .upcycleHi => 15
  | .frameLimit => 16 | .frameKey => 17 | .pktcountLo => 18 | .pktcountHi => 19
  | .c20 => 20 | .c21 => 21 | .c22 => 22 | .c23 => 23 | .c24 => 24 | .c25 => 25 | .c26 => 26 | .c27 => 27
  | .c28 => 28 | .c29 => 29 | .utimerLo => 30 | .utimerHi => 31

/-- The control registers in the order of their numbers (R21). -/
def cregTable : Vector CReg 32 :=
  #v[.sa0, .lc0, .sa1, .lc1, .p30, .c5, .m0, .m1,
     .usr, .pc, .ugp, .gp, .cs0, .cs1, .upcycleLo, .upcycleHi,
     .frameLimit, .frameKey, .pktcountLo, .pktcountHi, .c20, .c21, .c22, .c23,
     .c24, .c25, .c26, .c27, .c28, .c29, .utimerLo, .utimerHi]

/-- The control register of a number (R21, R101). -/
def CReg.ofNum (n : Fin 32) : CReg := cregTable[n]

/-- Whether a general register number is the even one of a pair (R13). -/
def evenReg (r : Reg) : Bool := r.val % 2 == 0

/-- Whether a control register number is the even one of a pair (R23). -/
def evenCReg (c : CReg) : Bool := c.num.val % 2 == 0

/-- The odd-numbered register of the pair named by its even register; it holds bits 63:32 (R14). -/
def oddOf (r : Reg) : Reg := r + 1

/-- The odd-numbered register of the control pair named by its even register; it holds bits 63:32 (R23). -/
def oddOfC (c : CReg) : CReg := CReg.ofNum (c.num + 1)

/-- The reserved control register numbers C5 and C20 to C29 (R25, R104). -/
def CReg.isReserved : CReg → Bool
  | .c5 | .c20 | .c21 | .c22 | .c23 | .c24 | .c25 | .c26 | .c27 | .c28 | .c29 => true
  | .sa0 | .lc0 | .sa1 | .lc1 | .p30 | .m0 | .m1 | .usr | .pc | .ugp | .gp | .cs0 | .cs1 | .upcycleLo | .upcycleHi
  | .frameLimit | .frameKey | .pktcountLo | .pktcountHi | .utimerLo | .utimerHi => false

end Sys2Proof
end

