-- ==== Sys2Proof/WellFormed.lean ====
section
/-! DEFINITION. Which terms of Instr name an instruction: a pair operand is named by an even number (R13, R23, R105). -/

namespace Sys2Proof

/-- The checks: in `Rdd = Css` and `Cdd = Rss` both operands are even-numbered; "An even:odd spelling such as R2:1 …
names nothing" (R13), and likewise for control pairs (R23). -/
def Instr.wellFormed : Instr → Bool
  | .rdCs _ _ => true
  | .cdRs _ _ => true
  | .rddCss d s => evenReg d && evenCReg s
  | .cddRss d s => evenCReg d && evenReg s
  | .rdPs _ _ => true

end Sys2Proof
end

