-- ==== Sys2Proof/Decode.lean ====
section
/-! DEFINITION. The decoder of instruction words and packets, and the encoder, from the bit patterns of R105 and the
opcode table (PRESUMED: the spec marks them general knowledge; log 1). Unsafe. -/

namespace Sys2Proof

/-- The row of `Rd=Cs`: match and mask (R105). -/
def matchRdCs : Word := 0x6A000000
/-- The row of `Cd=Rs` (R105). -/
def matchCdRs : Word := 0x62200000
/-- The row of `Rdd=Css` (R105). -/
def matchRddCss : Word := 0x68000000
/-- The row of `Cdd=Rss` (R105). -/
def matchCddRss : Word := 0x63200000
/-- The row of `Rd=Ps` (R105). -/
def matchRdPs : Word := 0x89400000
/-- The mask of the four control transfer rows (R105). -/
def maskCr : Word := 0xFFE00000
/-- The mask of the `Rd=Ps` row (R105). -/
def maskPs : Word := 0xFF400000

/-- The source field, bits 20:16 (R105). -/
def sourceField (w : Word) : Fin 32 := ⟨(w.extractLsb' 16 5).toNat, (w.extractLsb' 16 5).isLt⟩

/-- The destination field, bits 4:0 (R105). -/
def destField (w : Word) : Fin 32 := ⟨(w.extractLsb' 0 5).toNat, (w.extractLsb' 0 5).isLt⟩

/-- The predicate source field of `Rd=Ps`, bits 17:16 (R105). -/
def predField (w : Word) : Fin 4 := ⟨(w.extractLsb' 16 2).toNat, (w.extractLsb' 16 2).isLt⟩

/-- The parse bits of a word, 15:14 (R106). -/
def parseBits (w : Word) : BitVec 2 := w.extractLsb' 14 2

/-- The row a word belongs to, with its operands. The parse bits and the bits a pattern leaves open are not consulted here
(R105; log 2). -/
def matchRow (w : Word) : Option Instr :=
  if w &&& maskCr = matchRdCs then some (.rdCs (destField w) (.ofNum (sourceField w)))
  else if w &&& maskCr = matchCdRs then some (.cdRs (.ofNum (destField w)) (sourceField w))
  else if w &&& maskCr = matchRddCss then some (.rddCss (destField w) (.ofNum (sourceField w)))
  else if w &&& maskCr = matchCddRss then some (.cddRss (.ofNum (destField w)) (sourceField w))
  else if w &&& maskPs = matchRdPs then some (.rdPs (destField w) (predField w))
  else none

/-- One 32-bit instruction word to an instruction, or the reason it is none; a duplex (parse bits 00, R106) is none. -/
def decodeWord (w : Word) : Except DecodeError Instr :=
  if parseBits w = 0#2 then .error (.duplex w)
  else
    match matchRow w with
    | none => .error (.unknownWord w)
    | some i => if i.wellFormed then .ok i else .error (.oddPair w)

/-- Four bytes as a word, the lowest address in bits 7:0 (R81, R106, D13). -/
def wordOfBytes (b0 b1 b2 b3 : Byte) : Word := b3 ++ b2 ++ b1 ++ b0

/-- A word as four bytes, the lowest address first (R81, R106, D13). -/
def bytesOfWord (w : Word) : List Byte :=
  [w.extractLsb' 0 8, w.extractLsb' 8 8, w.extractLsb' 16 8, w.extractLsb' 24 8]

/-- The first instruction of a byte string and the bytes after it. -/
def decode : List Byte → Except DecodeError (Instr × List Byte)
  | b0 :: b1 :: b2 :: b3 :: rest =>
    match decodeWord (wordOfBytes b0 b1 b2 b3) with
    | .ok i => .ok (i, rest)
    | .error e => .error e
  | [] => .error .truncated
  | [_] => .error .truncated
  | [_, _] => .error .truncated
  | [_, _, _] => .error .truncated

/-- What is wrong with the k-th word of a packet as a part of it (R106): at most four words, parse bits 11 (or a duplex's 00)
exactly in the last, and no end of a hardware loop. -/
def framingError (k : Nat) (last : Bool) (w : Word) : Option DecodeError :=
  if 4 ≤ k then some .packetTooLong
  else if last then
    if parseBits w = 3#2 ∨ parseBits w = 0#2 then none else some (.badFraming w)
  else if parseBits w = 3#2 ∨ parseBits w = 0#2 then some (.badFraming w)
  else if parseBits w = 2#2 ∧ k < 2 then some (.loopEnd w)
  else none

/-- The instructions of a packet from its k-th word on. -/
def decodeFrom (k : Nat) : List Byte → Except DecodeError (List Instr)
  | [] => .ok []
  | b0 :: b1 :: b2 :: b3 :: rest =>
    match framingError k rest.isEmpty (wordOfBytes b0 b1 b2 b3) with
    | some e => .error e
    | none =>
      match decodeWord (wordOfBytes b0 b1 b2 b3) with
      | .error e => .error e
      | .ok i =>
        match decodeFrom (k + 1) rest with
        | .error e => .error e
        | .ok is => .ok (i :: is)
  | [_] => .error .truncated
  | [_, _] => .error .truncated
  | [_, _, _] => .error .truncated

/-- All instructions of a packet's bytes, in order (R100, R106). The packet's extent comes from the program text (D25), and
the parse bits must agree with it (log 2). -/
def decodePacket (bytes : List Byte) : Except DecodeError (List Instr) := decodeFrom 0 bytes

/-- A word as the one word of a packet: parse bits 11 (R106). A row of the opcode table gives the parse bits no value. -/
def asOnlyWord (w : Word) : Word := w ||| 0xC000#32

/-- A word with parse bits 11 as a word before the last: parse bits 01 (R106). -/
def asInnerWord (w : Word) : Word := w &&& 0xFFFF7FFF#32

/-- The instruction the decoder reads from a word of the opcode table's numbering (bit 0 least significant); bits from
nbits up are 0, and the parse bits are those of a packet of one word (log 2). -/
def decodeTableWord (nbits w : Nat) : Option Instr :=
  match decode (bytesOfWord (asOnlyWord (BitVec.ofNat 32 (w % 2 ^ nbits)))) with
  | .ok (i, _) => some i
  | .error _ => none

/-- A word from its row, source and destination numbers, with parse bits 11, the last word of its packet (R105, R106,
and the formation rule under the table of transfer examples in spec/95_test_vectors.md). -/
def assemble (row : Word) (s d : Nat) : Word :=
  row ||| (BitVec.ofNat 32 s <<< 16) ||| 0xC000#32 ||| BitVec.ofNat 32 d

/-- The word of a well-formed instruction (R105). -/
def encode : Instr → Word
  | .rdCs d s => assemble matchRdCs s.num.val d.val
  | .cdRs d s => assemble matchCdRs s.val d.num.val
  | .rddCss d s => assemble matchRddCss s.num.val d.val
  | .cddRss d s => assemble matchCddRss s.val d.num.val
  | .rdPs d s => assemble matchRdPs s.val d.val

/-- The bytes of a well-formed instruction, lowest address first. -/
def encodeBytes (i : Instr) : List Byte := bytesOfWord (encode i)

/-- The bytes of a packet of well-formed instructions: parse bits 11 in the last word, 01 in the others (R106). -/
def encodePacket : List Instr → List Byte
  | [] => []
  | [i] => encodeBytes i
  | i :: j :: is => bytesOfWord (asInnerWord (encode i)) ++ encodePacket (j :: is)

end Sys2Proof
end

