-- ==== Sys2Proof/Config.lean ====
section
/-! DEFINITION. What the spec leaves to the implementation or to the environment: constants without a body, so that no
proof can know their values. The ones that take a Nat are drawn at the counter State.envTick (log 17). -/

namespace Sys2Proof.Config

/-- `reserved_field_read` for USR bits 30, 24, 19:18, 17 and 7:6 (R43, D7, U5; log 5); the other bits of the word are not used. -/
opaque usrReserved : Word

/-- `reserved_field_read` for GP bits 5:0 (R54, D7, U6; log 5). -/
opaque gpReserved : BitVec 6

/-- USR.FPCOPROC, "a 2-bit configuration value, constant during a run" (R36, D26, U7; log 6). -/
opaque fpcoproc : BitVec 2

/-- How far UPCYCLE moves up to the given sample, "a number no rule of this spec fixes" (R168, R55, D10; log 13). -/
opaque cyclesElapsed : Nat → DWord

/-- How far the QTimer view moves up to the given sample (R62, D10, N14; log 14). -/
opaque timerElapsed : Nat → DWord

/-- How many selected events performance counter n saw up to the given sample (R63, U1; log 15). -/
opaque pmuEvents : Nat → Fin 8 → Word

/-- Whether the `l2fetch` prefetch is still in progress when USR is read at the given sample (R33, D20, U15; log 16). -/
opaque prefetchContinues : Nat → Bool

/-- Per enable, whether the new value (1) or the old one (0) already governs at the given sample, while USR[29:25] has
changed and no `isync` has executed (R206, D19, U10; log 34). -/
opaque trapEnableIsNew : Nat → BitVec 5

/-- `hfd_policy`: how an implementation interprets the four levels of USR.HFD (R6, R38, U3). "no rule consults it" (D27;
log 42). -/
opaque hfdPolicy : BitVec 2 → Nat

/-- `pc_wrap`: the address of what follows a packet that starts at the given address and ends at 2^32 (R6, D25; log 12). -/
opaque pcWrap : Word → Word

end Sys2Proof.Config
end

