-- ==== Sys2Proof/Machine/State.lean ====
section
/-! DEFINITION. The machine's state, the reasons a step can stop, and the state after reset. Every field is plain data.
INVENTORY.md lists each field with its rule and its reset value. -/

namespace Sys2Proof.Machine

/-- The three processor modes the spec names (R188). -/
inductive Mode where
  | user
  | guest
  | monitor
  deriving DecidableEq, Repr

/-- A range of addresses that is RAM: an entry of the platform's `address_map` (R85, D13). -/
structure Region where
  base : Nat
  size : Nat
  deriving DecidableEq, Repr

/-- One packet of the program text: its address, the address of the packet that follows it in memory, and its bytes.
Both addresses come "from the program text (D15), not from arithmetic on the PC" (D25). -/
structure TextPacket where
  addr : Word
  next : Word
  bytes : List Byte
  deriving DecidableEq, Repr

/-- Memory that holds a value, as (address, byte) pairs with strictly rising addresses; an address that is not listed
holds no value (log 27). -/
abbrev Mem := List Host.Cell

/-- Why the machine stops with a fault: the terminal `raise` of R181, and a read of memory that holds no value. -/
inductive Fault where
  /-- Raised by `allocframe` when SP would lie below FRAMELIMIT (R183, U19). Safe: the packet does not complete. -/
  | stackBounds
  /-- Raised by a floating-point instruction: bit k is set for each condition that is met while its enable governs, with
  k = 0 invalid, 1 divide-by-zero, 2 overflow, 3 underflow, 4 inexact (R182, R34, U20). The spec orders no two
  conditions (R184), so all are named. Safe: the packet does not complete. -/
  | floatingPoint (conditions : BitVec 5)
  /-- Raised by a load of a byte that nothing has written (log 27). Safe: the hardware would go on. -/
  | unwrittenMemory (address : Nat)
  deriving DecidableEq, Repr

/-- Why the model gives a packet no meaning ("refuse", R8). All are safe: the hardware may go on, and nothing is claimed. -/
inductive Refusal where
  /-- Raised by exec's arm of an instruction that has no meaning yet. -/
  | notModelled (mnemonic : String)
  /-- A transfer names a reserved control register number, alone or in a pair (R25, R104, D5, U4). -/
  | reservedControl (c : CReg)
  /-- A transfer writes the PC or a UTIMER register, which are read-only (R22, R62, D4, U11). -/
  | readOnlyControl (c : CReg)
  /-- A transfer writes a UPCYCLE register, for which no write is stated (R55, D4, U12). -/
  | noStatedWrite (c : CReg)
  /-- A transfer writes PKTCOUNT while access to it is disabled (R61, D10, U14). -/
  | pktcountWriteDisabled
  /-- A transfer writes the reserved value 11 to USR.HFI (R37, D27, U2). -/
  | reservedHfi
  /-- A pair form names an odd register, which names no pair (R13, R23); the decoder never gives such a term. -/
  | oddPair
  /-- A packet, or one instruction of it, writes one register twice (D18(b), U21). -/
  | doubleWrite
  /-- A packet of the program text holds no instruction. -/
  | emptyPacket
  /-- The PC is no legal PC value of the platform, `pc_alignment` (R6, D25; log 12). -/
  | illegalPc (pc : Word)
  /-- No packet of the program text stands at the PC (D1, D15). -/
  | noPacketAt (pc : Word)
  /-- A packet of the program text reaches the end of the address space, 2^32 (D25). -/
  | textReachesTop
  /-- The packet's bytes are no packet of instructions of the opcode table (R105, R106, R169, D24). -/
  | undecodable (e : DecodeError)
  /-- A memory access at an address that is no multiple of its width (R83, D14, U17). -/
  | misaligned (address : Nat)
  /-- A memory access outside `address_map` (R85, D13, U18). -/
  | outsideAddressMap (address : Nat)
  /-- A circular access through an Mu whose bits 27:24 are not 0 (R47, D22, U8). -/
  | circularReservedBits
  /-- A floating-point instruction shares its packet with a transfer to USR (R205, D18(c), U9). -/
  | usrGroupedWithFloat
  /-- A floating-point instruction while FPCOPROC is not 11 (R36, U7). -/
  | fpcoprocNotIeee
  /-- A read of a UPMUCNT register while SSR.PE does not enable it (R63, D21). -/
  | upmucntDisabled
  deriving DecidableEq, Repr

/-- The answer of an operation: a value, a fault or a refusal. -/
abbrev Res (α : Type) := Host.Outcome α Fault Refusal

/-- The architectural state (10_state.md, and 20_memory.md R80, R85, R89), with two fields of the model's own. -/
structure State where
  /-- R0 to R31 (R10). -/
  regs : Vector Word 32
  /-- C9, the address of the packet to execute (R22). -/
  pc : Word
  /-- The MODEL's own: the address of the packet that follows the current one, set by the fetch (R22(b), D25; log 11). -/
  nextPc : Word
  /-- C0 (R31). -/
  sa0 : Word
  /-- C1 (R30). -/
  lc0 : Word
  /-- C2 (R31). -/
  sa1 : Word
  /-- C3 (R30). -/
  lc1 : Word
  /-- P0 to P3, reached together as C4 (R50, R51). -/
  preds : Vector Byte 4
  /-- C6 (R45). -/
  m0 : Word
  /-- C7 (R45). -/
  m1 : Word
  /-- C8 (R32); bit 31, PFA, is not stored here but read from the prefetch engine (R33). -/
  usr : Word
  /-- C10 (R53). -/
  ugp : Word
  /-- C11 (R54). -/
  gp : Word
  /-- C12 (R52). -/
  cs0 : Word
  /-- C13 (R52). -/
  cs1 : Word
  /-- C15:14 (R55). -/
  upcycle : DWord
  /-- C16 (R56). -/
  frameLimit : Word
  /-- C17 (R57). -/
  frameKey : Word
  /-- C19:18 (R58). -/
  pktcount : DWord
  /-- C31:30, the view of the QTimer (R62). -/
  utimer : DWord
  /-- UPMUCNT0 to UPMUCNT7 (R63). -/
  upmucnt : Vector Word 8
  /-- The l2fetch engine: whether a prefetch may still be in progress, that is, no read of USR has returned PFA = 0 since
  the last l2fetch or since the launch (R64(a), D20). -/
  prefetchOpen : Bool
  /-- `fp_trap_enables_in_effect` (R64(b), R206). -/
  trapEnables : BitVec 5
  /-- `upcycle_access` (R64(c), R55). -/
  upcycleAccess : Bool
  /-- `pktcount_access` (R64(c), R61). -/
  pktcountAccess : Bool
  /-- `utimer_access` (R64(c), R62). -/
  utimerAccess : Bool
  /-- `upmucnt_access`, the bit SSR.PE (R64(c), R63). -/
  upmucntAccess : Bool
  /-- The current processor mode (R64(d), R188). -/
  mode : Mode
  /-- Data memory (R80, R89). -/
  mem : Mem
  /-- `address_map`: which addresses are RAM (R85, D13). -/
  addressMap : List Region
  /-- `pc_alignment`: the legal PC values are the multiples of this number (R6, D25; log 12). -/
  pcAlignment : Nat
  /-- The program text (D1, D15, R89). -/
  text : List TextPacket
  /-- The MODEL's own: the index of the next free value (log 17). -/
  envTick : Nat
  deriving DecidableEq, Repr

/-- The machine right after reset (R65, R200, R201). The spec states UPCYCLE = 0 and FPRND = 00 and nothing else; USR's
reserved bits and FPCOPROC and GP[5:0] are parameters (log 5, 6); every other value is the model's (log 3, 7 to 9, 12,
14 to 17, 27, 28, 34). -/
def State.reset : State where
  regs := Vector.replicate 32 0
  pc := 0
  nextPc := 0
  sa0 := 0
  lc0 := 0
  sa1 := 0
  lc1 := 0
  preds := Vector.replicate 4 0
  m0 := 0
  m1 := 0
  usr := (Config.usrReserved &&& 0x410E00C0) ||| (Config.fpcoproc.zeroExtend 32 <<< 20)
  ugp := 0
  gp := Config.gpReserved.zeroExtend 32
  cs0 := 0
  cs1 := 0
  upcycle := 0
  frameLimit := 0
  frameKey := 0
  pktcount := 0
  utimer := 0
  upmucnt := Vector.replicate 8 0
  prefetchOpen := true
  trapEnables := 0
  upcycleAccess := true
  pktcountAccess := true
  utimerAccess := true
  upmucntAccess := true
  mode := .user
  mem := []
  addressMap := [⟨0, 4294967296⟩]
  pcAlignment := 1
  text := []
  envTick := 0

end Sys2Proof.Machine
end

