-- ==== Sys2Proof/Machine/Flags.lean ====
section
/-! DEFINITION. The user status register: its fields, its write mask, and every status computation the spec gives. -/

namespace Sys2Proof.Machine

/-- The rows of the USR field table (R32), every bit of the 32 accounted for. -/
inductive UsrField where
  | pfa | reserved30 | fpinee | fpunfe | fpovfe | fpdbze | fpinve | reserved24 | fprnd | fpcoproc
  | reserved19 | reserved17 | hfi | hfd | pcmme | pcgme | pcume | lpcfge | reserved7
  | fpinpf | fpunff | fpovff | fpdbzf | fpinvf | ovf
  deriving DecidableEq, Repr

/-- The fields in the table's order (R32). -/
def usrFields : List UsrField :=
  [.pfa, .reserved30, .fpinee, .fpunfe, .fpovfe, .fpdbze, .fpinve, .reserved24, .fprnd, .fpcoproc,
   .reserved19, .reserved17, .hfi, .hfd, .pcmme, .pcgme, .pcume, .lpcfge, .reserved7,
   .fpinpf, .fpunff, .fpovff, .fpdbzf, .fpinvf, .ovf]

/-- The lowest bit of a field (R32). -/
def UsrField.lo : UsrField → Nat
  | .pfa => 31 | .reserved30 => 30 | .fpinee => 29 | .fpunfe => 28 | .fpovfe => 27 | .fpdbze => 26 | .fpinve => 25
  | .reserved24 => 24 | .fprnd => 22 | .fpcoproc => 20 | .reserved19 => 18 | .reserved17 => 17 | .hfi => 15 | .hfd => 13
  | .pcmme => 12 | .pcgme => 11 | .pcume => 10 | .lpcfge => 8 | .reserved7 => 6
  | .fpinpf => 5 | .fpunff => 4 | .fpovff => 3 | .fpdbzf => 2 | .fpinvf => 1 | .ovf => 0

/-- The number of bits of a field (R32). -/
def UsrField.width : UsrField → Nat
  | .fprnd | .fpcoproc | .reserved19 | .hfi | .hfd | .lpcfge | .reserved7 => 2
  | .pfa | .reserved30 | .fpinee | .fpunfe | .fpovfe | .fpdbze | .fpinve | .reserved24 | .reserved17
  | .pcmme | .pcgme | .pcume | .fpinpf | .fpunff | .fpovff | .fpdbzf | .fpinvf | .ovf => 1

/-- The RW column: whether a transfer to USR writes the field (R32). -/
def UsrField.writable : UsrField → Bool
  | .fpinee | .fpunfe | .fpovfe | .fpdbze | .fpinve | .fprnd | .hfi | .hfd | .pcmme | .pcgme | .pcume | .lpcfge
  | .fpinpf | .fpunff | .fpovff | .fpdbzf | .fpinvf | .ovf => true
  | .pfa | .reserved30 | .reserved24 | .fpcoproc | .reserved19 | .reserved17 | .reserved7 => false

/-- The bits of a field, as a mask. -/
def UsrField.mask (f : UsrField) : Word := BitVec.ofNat 32 ((2 ^ f.width - 1) * 2 ^ f.lo)

/-- A field's value in a USR word. -/
def usrField (f : UsrField) (u : Word) : Nat := (u.extractLsb' f.lo f.width).toNat

/-- The writable mask of USR (R44). -/
def usrWriteMask : Word := 0x3EC1FF3F

/-- The mask of USR's fields marked R (R44). -/
def usrKeepMask : Word := 0xC13E00C0

/-- The word a transfer to USR stores: "replaces exactly the fields marked RW and leaves the fields marked R" (R44, D6). -/
def usrWrite (old v : Word) : Word := (v &&& usrWriteMask) ||| (old &&& usrKeepMask)

/-- Whether a word holds the reserved value 11 in HFI, bits 16:15 (R37). -/
def hfiReserved (v : Word) : Bool := v.extractLsb' 15 2 == 3#2

/-- The five enable trap bits USR[29:25] (R34). -/
def usrTrapEnables (u : Word) : BitVec 5 := u.extractLsb' 25 5

/-- The four floating-point rounding modes (R35). -/
inductive RoundingMode where
  | nearestEven
  | towardZero
  | downward
  | upward
  deriving DecidableEq, Repr

/-- The rounding mode of a value of FPRND: 00, 01, 10, 11 in this order (R35). -/
def roundingMode (b : BitVec 2) : RoundingMode :=
  if b = 0#2 then .nearestEven else if b = 1#2 then .towardZero else if b = 2#2 then .downward else .upward

/-- The rounding mode USR[23:22] (R35). -/
def usrRounding (u : Word) : RoundingMode := roundingMode (u.extractLsb' 22 2)

/-- Whether USR.FPCOPROC is 11, which "gives IEEE-754 behavior" (R36). -/
def usrIeee (u : Word) : Bool := u.extractLsb' 20 2 == 3#2

/-- USR after a `:sat` instruction: OVF set if it saturated, unchanged otherwise (R42, R157). -/
def usrSaturate (saturated : Bool) (u : Word) : Word := if saturated then u ||| 1#32 else u

/-- USR after a floating-point instruction that met the given conditions, bit k of which belongs to sticky flag 1 + k;
flags are set, never cleared (R41, R34). -/
def usrSticky (conditions : BitVec 5) (u : Word) : Word := u ||| (conditions.zeroExtend 32 <<< 1)

/-- Whether a packet that completes is counted: the current mode's enable, PCUME, PCGME or PCMME, is set (R39, R59). -/
def State.counting (s : State) : Bool :=
  match s.mode with
  | .user => s.usr.getLsbD 10
  | .guest => s.usr.getLsbD 11
  | .monitor => s.usr.getLsbD 12

/-- USR.PFA as sample k of the current packet reads it: 0 once a read has returned 0 since the last l2fetch, else free
(R33, D20). -/
def State.pfaAt (s : State) (k : Nat) : Bool := s.prefetchOpen && Config.prefetchContinues (s.envTick + k)

/-- C[8] as sample k reads it: the stored word with bit 31 the prefetch engine's (R125). -/
def State.usrAt (s : State) (k : Nat) : Word := (s.usr &&& 0x7FFFFFFF#32) ||| (if s.pfaAt k then 0x80000000#32 else 0#32)

/-- The trap enables that govern a floating-point instruction: per bit the new value USR[29:25] or the old one last
synchronised by an isync, a free choice (R206, R182, D19, U10; log 34). Where the two agree there is no choice. -/
def State.governingEnables (s : State) : BitVec 5 :=
  (Config.trapEnableIsNew s.envTick &&& usrTrapEnables s.usr) ||| (~~~Config.trapEnableIsNew s.envTick &&& s.trapEnables)

end Sys2Proof.Machine
end

