-- ==== Sys2Proof/Machine/Ops.lean ====
section
/-! DEFINITION. The shared operations: sequencing, the raise of an exception, the environment's counters, what every
completing packet does, memory, and the program text. -/

namespace Sys2Proof.Machine

/-- Continue with a value; a fault or a refusal ends the packet. -/
def andThen {α β : Type} (x : Res α) (f : α → Res β) : Res β :=
  match x with
  | .next a => f a
  | .fault r => .fault r
  | .refused r => .refused r

/-- TAKING AN EXCEPTION, the spec's `raise` (R181, D17): the packet does not complete, so no register or memory write
takes effect, the PC does not advance and PKTCOUNT does not count; the raise is a terminal fault. The spec gives no
handler, no saved state, and no return from an exception (R186, N18; log 30), so there is none here. -/
def raise {α : Type} (e : Fault) : Res α := .fault e

/-! ### The environment's counters (R55, R62, R63, R168) -/

/-- UPCYCLE at sample k of the current packet: any value, as the amount elapsed is free (R55, D10, D12). -/
def State.upcycleAt (s : State) (k : Nat) : DWord := s.upcycle + Config.cyclesElapsed (s.envTick + k)

/-- UTIMER at sample k of the current packet: any value (R62, D10). -/
def State.utimerAt (s : State) (k : Nat) : DWord := s.utimer + Config.timerElapsed (s.envTick + k)

/-- UPMUCNTn at sample k of the current packet, modulo 2^32 (R63). -/
def State.upmucntAt (s : State) (n : Fin 8) (k : Nat) : Word := s.upmucnt[n] + Config.pmuEvents (s.envTick + k) n

/-- What every packet of n instructions does when it completes, whatever it contains (R168, R129): the PC becomes the next
packet's address (R22(b)), PKTCOUNT counts it if the mode's enable was set at its start (R59, D11, D18), and the
environment's counters have moved on to its last sample. -/
def State.retire (s : State) (n : Nat) : State :=
  { s with
    pc := s.nextPc
    pktcount := s.pktcount + (if s.counting then 1 else 0)
    upcycle := s.upcycleAt (n - 1)
    utimer := s.utimerAt (n - 1)
    upmucnt := Vector.ofFn fun i => s.upmucntAt i (n - 1)
    envTick := s.envTick + n }

/-! ### Memory (R80 to R83, R92) -/

/-- Whether `address_map` calls an address RAM (R85, D13). -/
def inRegions : List Region → Nat → Bool
  | [], _ => false
  | r :: rest, a => (r.base ≤ a && a < r.base + r.size) || inRegions rest a

/-- The byte an address holds; `none` where nothing has written it (log 27). -/
def Mem.find (a : Nat) : Mem → Option Byte
  | [] => none
  | (b, v) :: rest => if a = b then some v else Mem.find a rest

/-- Memory with one byte written, the list kept in rising order of addresses. -/
def Mem.put (a : Nat) (v : Byte) : Mem → Mem
  | [] => [(a, v)]
  | (b, w) :: rest =>
    if a < b then (a, v) :: (b, w) :: rest
    else if a = b then (a, v) :: rest
    else (b, w) :: Mem.put a v rest

/-- Whether every address of the list is above a bound and they rise strictly. -/
def Mem.risingFrom (lo : Nat) : Mem → Bool
  | [] => true
  | (a, _) :: rest => lo ≤ a && Mem.risingFrom (a + 1) rest

/-- Whether every address of the list is an address of the space of 2^32 bytes (R80, D13). -/
def Mem.inSpace : Mem → Bool
  | [] => true
  | (a, _) :: rest => a < 4294967296 && Mem.inSpace rest

/-- The canonical form of memory: strictly rising addresses, each below 2^32. -/
def Mem.wf (m : Mem) : Bool := Mem.risingFrom 0 m && Mem.inSpace m

/-- One byte of memory as the machine's programs could read it, `none` where it holds no value. -/
def State.byteAt (s : State) (a : Nat) : Option Byte := Mem.find a s.mem

/-- The key of the i-th byte of an access, modulo 2^32 (R80). -/
def byteKey (addr : Word) (i : Nat) : Nat := (addr + BitVec.ofNat 32 i).toNat

/-- Whether an n-byte access at an address is naturally aligned (R83, D14). -/
def aligned (addr : Word) (n : Nat) : Bool := addr.toNat % n == 0

/-- Whether every byte of an n-byte access is RAM. -/
def State.ram (s : State) (addr : Word) : Nat → Bool
  | 0 => true
  | n + 1 => s.ram addr n && inRegions s.addressMap (byteKey addr n)

/-- What an access must meet before it happens: alignment (D14), then the address map (D13). -/
def State.checkAccess (s : State) (addr : Word) (n : Nat) : Res Unit :=
  if aligned addr n then
    if s.ram addr n then .next () else .refused (.outsideAddressMap addr.toNat)
  else .refused (.misaligned addr.toNat)

/-- The n bytes from an address as one value, the byte at the lowest address in bits 7:0 (R80, R81, D13). -/
def State.gather (s : State) (addr : Word) : (n : Nat) → Res (BitVec (8 * n))
  | 0 => .next 0
  | n + 1 =>
    andThen (s.gather addr n) fun low =>
      match s.byteAt (byteKey addr n) with
      | none => .fault (.unwrittenMemory (byteKey addr n))
      | some b => .next ((b ++ low).cast (by omega))

/-- `MemRead(addr, n)` (R8, R80). -/
def State.memRead (s : State) (addr : Word) (n : Nat) : Res (BitVec (8 * n)) :=
  andThen (s.checkAccess addr n) fun _ => s.gather addr n

/-- Store the lowest n bytes of a value from an address upward, the lowest byte first (R80, R81). -/
def Mem.scatter (addr : Word) (v : Nat) : Nat → Mem → Mem
  | 0, m => m
  | n + 1, m => Mem.put (byteKey addr n) (BitVec.ofNat 8 (v / 256 ^ n)) (Mem.scatter addr v n m)

/-- `MemWrite(addr, n, v)` (R8, R80). -/
def State.memWrite (s : State) (addr : Word) (n : Nat) (v : BitVec (8 * n)) : Res State :=
  andThen (s.checkAccess addr n) fun _ => .next { s with mem := Mem.scatter addr v.toNat n s.mem }

/-! ### The program text (D1, D15, D25, R89) -/

/-- The packet at an address. -/
def findPacket (a : Word) : List TextPacket → Option TextPacket
  | [] => none
  | p :: rest => if p.addr = a then some p else findPacket a rest

/-- The text with a packet placed in the order of addresses, instead of one at the same address. -/
def placePacket (q : TextPacket) : List TextPacket → List TextPacket
  | [] => [q]
  | p :: rest =>
    if q.addr < p.addr then q :: p :: rest
    else if q.addr = p.addr then q :: rest
    else p :: placePacket q rest

/-- Whether every packet of a text ends before the top of the address space (D25). -/
def textFits : List TextPacket → Bool
  | [] => true
  | p :: rest => p.addr.toNat + p.bytes.length < 4294967296 && textFits rest

/-- Whether the platform lets an address be the PC (R6, D25; log 12). -/
def State.legalPc (s : State) (pc : Word) : Bool := pc.toNat % s.pcAlignment == 0

/-- The packet the PC points at (R22, D15); "a program whose text reaches 2^32 is refused" (D25). DESIGN CHOICE (log 28): a
fetch is not checked against `address_map`, since the text is a parameter of the run (D15); only data accesses are. -/
def State.fetch (s : State) : Res TextPacket :=
  if s.legalPc s.pc then
    match findPacket s.pc s.text with
    | none => .refused (.noPacketAt s.pc)
    | some p => if textFits s.text then .next p else .refused .textReachesTop
  else .refused (.illegalPc s.pc)

end Sys2Proof.Machine
end

