-- ==== Sys2Proof/Machine/Operands.lean ====
section
/-! DEFINITION. Reading and writing operands: general registers and pairs, predicates, control registers and pairs, and
the parts of the addressing modes that the spec gives. The sample index k says which draw of the environment a read
takes; it is the instruction's place in its packet (U22). -/

namespace Sys2Proof.Machine

/-! ### General registers and pairs (R10 to R14) -/

/-- `R[i]` (R8, R10). -/
def State.getR (s : State) (r : Reg) : Word := s.regs[r]

/-- `R[i] <- v` (R8, R10). -/
def State.setR (s : State) (r : Reg) (v : Word) : State := { s with regs := s.regs.set r v }

/-- `RR[i]`, the odd register in bits 63:32 (R14, D2). -/
def State.getRR (s : State) (r : Reg) : DWord := s.getR (oddOf r) ++ s.getR r

/-- `RR[i] <- v`, both halves in the same step (R8, R14). -/
def State.setRR (s : State) (r : Reg) (v : DWord) : State :=
  (s.setR r (v.extractLsb' 0 32)).setR (oddOf r) (v.extractLsb' 32 32)

/-- SP, R29 (R12). -/
def regSP : Reg := 29
/-- FP, R30 (R12). -/
def regFP : Reg := 30
/-- LR, R31 (R12). -/
def regLR : Reg := 31

/-! ### Predicates (R50, R51) -/

/-- `P[k]` (R8, R50). -/
def State.getP (s : State) (p : PReg) : Byte := s.preds[p]

/-- `P[k] <- v`. -/
def State.setP (s : State) (p : PReg) (v : Byte) : State := { s with preds := s.preds.set p v }

/-- P3:0 as a word (R51). -/
def State.getPreds (s : State) : Word := s.getP 3 ++ s.getP 2 ++ s.getP 1 ++ s.getP 0

/-- The write of P3:0 (R51). -/
def State.setPreds (s : State) (v : Word) : State :=
  (((s.setP 0 (v.extractLsb' 0 8)).setP 1 (v.extractLsb' 8 8)).setP 2 (v.extractLsb' 16 8)).setP 3 (v.extractLsb' 24 8)

/-! ### Control registers (R125, R126) -/

/-- The read table `C[n]` of R125, at sample k. -/
def State.readC (s : State) (k : Nat) (c : CReg) : Res Word :=
  match c with
  | .sa0 => .next s.sa0
  | .lc0 => .next s.lc0
  | .sa1 => .next s.sa1
  | .lc1 => .next s.lc1
  | .p30 => .next s.getPreds
  | .m0 => .next s.m0
  | .m1 => .next s.m1
  | .usr => .next (s.usrAt k)
  | .pc => .next s.pc
  | .ugp => .next s.ugp
  | .gp => .next s.gp
  | .cs0 => .next s.cs0
  | .cs1 => .next s.cs1
  | .upcycleLo => .next (if s.upcycleAccess then (s.upcycleAt k).extractLsb' 0 32 else 0)
  | .upcycleHi => .next (if s.upcycleAccess then (s.upcycleAt k).extractLsb' 32 32 else 0)
  | .frameLimit => .next s.frameLimit
  | .frameKey => .next s.frameKey
  | .pktcountLo => .next (if s.pktcountAccess then s.pktcount.extractLsb' 0 32 else 0)
  | .pktcountHi => .next (if s.pktcountAccess then s.pktcount.extractLsb' 32 32 else 0)
  | .utimerLo => .next (if s.utimerAccess then (s.utimerAt k).extractLsb' 0 32 else 0)
  | .utimerHi => .next (if s.utimerAccess then (s.utimerAt k).extractLsb' 32 32 else 0)
  | .c5 | .c20 | .c21 | .c22 | .c23 | .c24 | .c25 | .c26 | .c27 | .c28 | .c29 => .refused (.reservedControl c)

/-- What a read of a control register leaves behind in the environment: once a read of USR has returned PFA = 0, later
reads return 0 until the next l2fetch (D20). No register changes (R125, R91). The draw is the reading state's. -/
def State.noteRead (acc : State) (start : State) (k : Nat) (c : CReg) : State :=
  if c = .usr then { acc with prefetchOpen := acc.prefetchOpen && start.pfaAt k } else acc

/-- The write table `C[n] <- v` of R126, on the state in which the packet has already been counted (R60, D11). -/
def State.writeC (s : State) (c : CReg) (v : Word) : Res State :=
  match c with
  | .sa0 => .next { s with sa0 := v }
  | .lc0 => .next { s with lc0 := v }
  | .sa1 => .next { s with sa1 := v }
  | .lc1 => .next { s with lc1 := v }
  | .p30 => .next (s.setPreds v)
  | .m0 => .next { s with m0 := v }
  | .m1 => .next { s with m1 := v }
  | .usr => if hfiReserved v then .refused .reservedHfi else .next { s with usr := usrWrite s.usr v }
  | .ugp => .next { s with ugp := v }
  | .gp => .next { s with gp := (v &&& 0xFFFFFFC0#32) ||| (s.gp &&& 0x3F#32) }
  | .cs0 => .next { s with cs0 := v }
  | .cs1 => .next { s with cs1 := v }
  | .frameLimit => .next { s with frameLimit := v }
  | .frameKey => .next { s with frameKey := v }
  | .pktcountLo =>
    if s.pktcountAccess then .next { s with pktcount := s.pktcount.extractLsb' 32 32 ++ v } else .refused .pktcountWriteDisabled
  | .pktcountHi =>
    if s.pktcountAccess then .next { s with pktcount := v ++ s.pktcount.extractLsb' 0 32 } else .refused .pktcountWriteDisabled
  | .pc | .utimerLo | .utimerHi => .refused (.readOnlyControl c)
  | .upcycleLo | .upcycleHi => .refused (.noStatedWrite c)
  | .c5 | .c20 | .c21 | .c22 | .c23 | .c24 | .c25 | .c26 | .c27 | .c28 | .c29 => .refused (.reservedControl c)

/-! ### Control register pairs (R127, R128) -/

/-- `CC[2k]`: both halves read at the same instant, so at one sample of a counter; refused if either half is (R127). -/
def State.readCC (s : State) (k : Nat) (c : CReg) : Res DWord :=
  andThen (s.readC k (oddOfC c)) fun hi => andThen (s.readC k c) fun lo => .next (hi ++ lo)

/-- `CC[2k] <- v`: each half under its own write rule, refused if either half is (R128). The packet is counted before
both (R60), so C19:18 receives v exactly. -/
def State.writeCC (s : State) (c : CReg) (v : DWord) : Res State :=
  andThen (s.writeC c (v.extractLsb' 0 32)) fun t => t.writeC (oddOfC c) (v.extractLsb' 32 32)

/-! ### Addressing modes (R45 to R48, R52, R84) -/

/-- A modifier register by its number (R45). -/
def State.getM (s : State) (u : Fin 2) : Word := if u = 0 then s.m0 else s.m1

/-- The circular start register that goes with a modifier register (R52, D23). -/
def State.getCS (s : State) (u : Fin 2) : Word := if u = 0 then s.cs0 else s.cs1

/-- The I value of a circular buffer specifier, M[31:28] ++ M[23:17] (R47). -/
def circI (m : Word) : BitVec 11 := m.extractLsb' 28 4 ++ m.extractLsb' 17 7

/-- The Length field of a circular buffer specifier, M[16:0] (R47). -/
def circLength (m : Word) : BitVec 17 := m.extractLsb' 0 17

/-- Whether bits 27:24 of a modifier register are 0, as a circular access needs (R47, D22). -/
def circPlain (m : Word) : Bool := m.extractLsb' 24 4 == 0#4

/-- A user's read of UPMUCNTn, which no instruction of the spec performs (R63, D21; log 43). -/
def State.readUpmucnt (s : State) (n : Fin 8) : Res Word :=
  if s.upmucntAccess then .next (s.upmucntAt n 0) else .refused .upmucntDisabled

end Sys2Proof.Machine
end

