-- ==== Sys2Proof/Machine/Transfer.lean ====
section
/-! DEFINITION. The register transfer instructions (R120 to R124, R129). Each has its effect within a packet, which reads
the state at the packet's start and writes into the state that is to come (D18(b)), and its meaning as a packet of its
own. -/

namespace Sys2Proof.Machine

/-- `R[d] <- C[s]` (R120). -/
def moveRdCs (k : Nat) (d : Reg) (c : CReg) (start acc : State) : Res State :=
  andThen (start.readC k c) fun v => .next ((acc.noteRead start k c).setR d v)

/-- `C[d] <- R[s]` (R121). -/
def moveCdRs (c : CReg) (r : Reg) (start acc : State) : Res State :=
  acc.writeC c (start.getR r)

/-- `RR[2j] <- CC[2k]` (R122). -/
def moveRddCss (k : Nat) (d : Reg) (c : CReg) (start acc : State) : Res State :=
  if evenReg d && evenCReg c then
    andThen (start.readCC k c) fun v => .next ((acc.noteRead start k c).setRR d v)
  else .refused .oddPair

/-- `CC[2k] <- RR[2j]` (R123). -/
def moveCddRss (c : CReg) (r : Reg) (start acc : State) : Res State :=
  if evenCReg c && evenReg r then acc.writeCC c (start.getRR r) else .refused .oddPair

/-- `R[d] <- zext_32(P[s])` (R124, D8). -/
def moveRdPs (d : Reg) (p : PReg) (start acc : State) : Res State :=
  .next (acc.setR d ((start.getP p).zeroExtend 32))

/-- `Rd = Cs` as a packet (R120, R129). -/
def execRdCs (d : Reg) (c : CReg) (s : State) : Res State := moveRdCs 0 d c s (s.retire 1)

/-- `Cd = Rs` as a packet (R121, R129). -/
def execCdRs (c : CReg) (r : Reg) (s : State) : Res State := moveCdRs c r s (s.retire 1)

/-- `Rdd = Css` as a packet (R122, R129). -/
def execRddCss (d : Reg) (c : CReg) (s : State) : Res State := moveRddCss 0 d c s (s.retire 1)

/-- `Cdd = Rss` as a packet (R123, R129). -/
def execCddRss (c : CReg) (r : Reg) (s : State) : Res State := moveCddRss c r s (s.retire 1)

/-- `Rd = Ps` as a packet (R124, R129). -/
def execRdPs (d : Reg) (p : PReg) (s : State) : Res State := moveRdPs d p s (s.retire 1)

end Sys2Proof.Machine
end

