-- ==== Sys2Proof/Machine/Dispatch.lean ====
section
/-! DEFINITION. One arm per instruction of the opcode table. -/

namespace Sys2Proof.Machine

def exec (i : Instr) (s : State) : Host.Outcome State Fault Refusal :=
  match i with
  | .rdCs d c => Sys2Proof.Machine.execRdCs d c s
  | .cdRs c r => Sys2Proof.Machine.execCdRs c r s
  | .rddCss d c => Sys2Proof.Machine.execRddCss d c s
  | .cddRss c r => Sys2Proof.Machine.execCddRss c r s
  | .rdPs d p => Sys2Proof.Machine.execRdPs d p s

end Sys2Proof.Machine
end

