-- ==== Sys2Proof/Machine/Packet.lean ====
section
/-! DEFINITION. Packets of the program text: their instructions, the parallel execution of several instructions
(D18(b)), and loading the program. -/

namespace Sys2Proof.Machine

/-- A register an instruction names as its destination. -/
inductive Dest where
  | general (r : Reg)
  | control (c : CReg)
  deriving DecidableEq, Repr

/-- The destinations of an instruction; a pair is two registers (R13, R23). -/
def destsOf : Instr → List Dest
  | .rdCs d _ => [.general d]
  | .cdRs d _ => [.control d]
  | .rddCss d _ => [.general d, .general (oddOf d)]
  | .cddRss d _ => [.control d, .control (oddOfC d)]
  | .rdPs d _ => [.general d]

/-- Whether no register stands twice in the list. -/
def distinct : List Dest → Bool
  | [] => true
  | d :: rest => !rest.contains d && distinct rest

/-- The effect of the k-th instruction of a packet: it reads the packet's start and writes into what is to come. -/
def applySlot (k : Nat) (i : Instr) (start acc : State) : Res State :=
  match i with
  | .rdCs d c => moveRdCs k d c start acc
  | .cdRs c r => moveCdRs c r start acc
  | .rddCss d c => moveRddCss k d c start acc
  | .cddRss c r => moveCddRss c r start acc
  | .rdPs d p => moveRdPs d p start acc

/-- The instructions of a packet from the k-th on. -/
def runSlots : Nat → List Instr → State → State → Res State
  | _, [], _, acc => .next acc
  | k, i :: is, start, acc => andThen (applySlot k i start acc) (runSlots (k + 1) is start)

/-- A packet: "all instructions of a packet read the state as it was when the packet started and all writes are applied
together at completion; two writes to the same register in one packet are refused" (D18(b)). It counts once (R59). -/
def execPacket (is : List Instr) (s : State) : Res State :=
  if is.isEmpty then .refused .emptyPacket
  else if distinct (is.flatMap destsOf) then runSlots 0 is s (s.retire is.length)
  else .refused .doubleWrite

/-- A packet of one instruction is that instruction's meaning (D18(a)); any other is executed as D18(b) says. -/
def runPacket (is : List Instr) (s : State) : Res State :=
  match is with
  | [i] => exec i s
  | _ => execPacket is s

/-- Decode and execute the packet that was fetched; its successor in the text becomes the address of the packet that
follows (R22(b), D25). -/
def runFetched (s : State) (p : TextPacket) : Res State :=
  match decodePacket p.bytes with
  | .error e => .refused (.undecodable e)
  | .ok is => runPacket is { s with nextPc := p.next }

/-- One packet: fetch it from the program text at the PC, then run it. -/
def stepPacket (s : State) : Res State := andThen s.fetch (runFetched s)

/-- The address of what follows n bytes at an address, `pc_wrap` where they reach 2^32 (D25; log 12). -/
def addressAfter (start : Word) (n : Nat) : Word :=
  if start.toNat + n < 4294967296 then start + BitVec.ofNat 32 n else Config.pcWrap start

/-- A program loaded from outside: the one-word packet with these bits at the PC, its parse bits those of a packet of one word
(log 2), its successor four bytes on (R106 and the conventions of the programs in spec/95_test_vectors.md, general
knowledge; log 10). -/
def loadWord (s : State) (nbits w : Nat) : State :=
  { s with text := placePacket ⟨s.pc, addressAfter s.pc 4, bytesOfWord (asOnlyWord (BitVec.ofNat 32 (w % 2 ^ nbits)))⟩ s.text }

/-- Whether a word is the last of its packet: parse bits 11, or 00 for a duplex (R106, general knowledge; log 2). -/
def endsPacket (w : Word) : Bool := parseBits w == 3#2 || parseBits w == 0#2

/-- A byte image at an address cut into packets by the parse bits of its words (R106, general knowledge; log 2). The bytes
gathered so far belong to the packet that starts at the address; words after the last packet's end are no packet. -/
def frameImage (start : Word) (gathered : List Byte) : List Byte → List TextPacket
  | b0 :: b1 :: b2 :: b3 :: rest =>
    let whole := gathered ++ [b0, b1, b2, b3]
    if endsPacket (wordOfBytes b0 b1 b2 b3) then
      ⟨start, addressAfter start whole.length, whole⟩ :: frameImage (addressAfter start whole.length) [] rest
    else frameImage start whole rest
  | [] => []
  | [_] => []
  | [_, _] => []
  | [_, _, _] => []

/-- A program loaded from outside as a byte image, the PC at its first packet (D1, D15, R106; log 10). -/
def State.loadImage (s : State) (base : Word) (image : List Byte) : State :=
  { s with text := frameImage base [] image, pc := base }

end Sys2Proof.Machine
end

