-- ==== Sys2Proof/Machine/Step.lean ====
section
/-! DEFINITION. One step of the machine: one packet (R22, R168). -/

namespace Sys2Proof.Machine

/-- Execute the packet the PC points at (R22). -/
def step (s : State) : Host.Outcome State Fault Refusal := stepPacket s

/-- The state with an instruction word placed where the next step fetches it (log 10). -/
def State.withFetchWord (s : State) (nbits w : Nat) : State := loadWord s nbits w

end Sys2Proof.Machine
end

