-- ==== Sys2Proof/Machine/Contracts.lean ====
section
/-! DEFINITION. The register-side contracts of the instructions that the spec names without defining them (R150 to R167,
D24): what the spec states of each, with everything it leaves unstated as an argument (log 33). They have no encoding and
no row in the opcode table, so no constructor of Instr and no arm of exec stands for them; a model that takes such an
instruction from another source must agree with its contract. Each is a packet of its own and completes as every packet
does (R168). -/

namespace Sys2Proof.Machine

/-! ### Program flow and the stack (R150 to R154, R183) -/

/-- USR after a loop setup instruction: "Whether it also writes USR.LPCFGE is not stated" (R150), so the argument says whether
and with what. -/
def usrSetLpcfge (written : Option (BitVec 2)) (u : Word) : Word :=
  match written with
  | none => u
  | some v => (u &&& 0xFFFFFCFF#32) ||| (v.zeroExtend 32 <<< 8)

/-- `loop0(start, Rs)`: "LC0 = R4, SA0 = start" (R150). -/
def contractLoop0 (start : Word) (lpcfge : Option (BitVec 2)) (r : Reg) (s : State) : Res State :=
  .next { s.retire 1 with lc0 := s.getR r, sa0 := start, usr := usrSetLpcfge lpcfge s.usr }

/-- `loop1(start, Rs)`, by analogy with loop0 (R151). -/
def contractLoop1 (start : Word) (lpcfge : Option (BitVec 2)) (r : Reg) (s : State) : Res State :=
  .next { s.retire 1 with lc1 := s.getR r, sa1 := start, usr := usrSetLpcfge lpcfge s.usr }

/-- What the spec leaves open of a stack frame (R152): its size, and where in it the return address is stored and FP points,
as distances from its lowest address. The slot lies in the frame, as the push is onto the stack, and FP points into it
(R12; log 44). -/
structure FrameOpen where
  size : Word
  slot : Word
  fp : Word
  slotFits : slot.toNat + 4 ≤ size.toNat
  fpFits : fp.toNat < size.toNat
  deriving DecidableEq, Repr

/-- The word pushed for the return address: LR XORed with FRAMEKEY (R57, R152). -/
def State.scrambledReturn (s : State) : Word := s.getR regLR ^^^ s.frameKey

/-- SP after a frame is allocated: lower by the frame's size, as the stack grows toward lower addresses (R85, R152), modulo
2^32 (D12). It is the frame's lowest address. -/
def frameSp (o : FrameOpen) (s : State) : Word := s.getR regSP - o.size

/-- Whether a frame would put SP below FRAMELIMIT; "With FRAMELIMIT = 0 … the check cannot fail" (R183; log 44). -/
def frameOutOfBounds (o : FrameOpen) (s : State) : Bool :=
  s.frameLimit != 0 && (s.getR regSP).toNat < s.frameLimit.toNat + o.size.toNat

/-- `allocframe`: a frame that would put SP below FRAMELIMIT raises StackBounds (R183); otherwise the scrambled return
address is pushed onto the stack, SP moves to a lower address and FP points into the new frame (R152, R16, R170). -/
def contractAllocframe (o : FrameOpen) (s : State) : Res State :=
  if frameOutOfBounds o s then raise .stackBounds
  else
    andThen (s.memWrite (frameSp o s + o.slot) 4 s.scrambledReturn) fun t =>
      .next (((t.retire 1).setR regSP (frameSp o s)).setR regFP (frameSp o s + o.fp))

/-- `call label`: LR receives the return address, the address of the packet after the call, and the PC the target (R153;
log 40). -/
def contractCall (target : Word) (s : State) : Res State :=
  .next { (s.retire 1).setR regLR s.nextPc with pc := target }

/-- `if (Pu) jump label`: the target if Pu holds true, which the argument decides, else the next packet (R154). -/
def contractJumpIf (holds : Byte → Bool) (u : PReg) (target : Word) (s : State) : Res State :=
  .next { s.retire 1 with pc := if holds (s.getP u) then target else s.nextPc }

/-! ### Compare, arithmetic and vector instructions (R155 to R158) -/

/-- `Pd = cmp.eq(Rs, Rt)`: the true pattern if the registers are equal, else the false one; both patterns are arguments
(R155). -/
def contractCmpEq (truePattern falsePattern : Byte) (d : PReg) (rs rt : Reg) (s : State) : Res State :=
  .next ((s.retire 1).setP d (if s.getR rs = s.getR rt then truePattern else falsePattern))

/-- `Rd = add(Rs, Rt)`: the sum modulo 2^32, no flag (R156, D12). -/
def contractAdd (d rs rt : Reg) (s : State) : Res State := .next ((s.retire 1).setR d (s.getR rs + s.getR rt))

/-- `Rd = add(Rs, #imm)` (R156, D12). DESIGN CHOICE (log 46): any 32-bit immediate is allowed. -/
def contractAddImm (d rs : Reg) (imm : Word) (s : State) : Res State := .next ((s.retire 1).setR d (s.getR rs + imm))

/-- `Rdd = vaddw(Rss, Rtt):sat`: two word elements, each added by an operation that says whether it saturated (R157); OVF
is set if any element saturated and unchanged otherwise (R42). DESIGN CHOICE (log 45): "lane order" is not stated (R158);
here the low words of both sources give the low word of Rdd, and the high words the high one. -/
def contractVaddwSat (element : Word → Word → Word × Bool) (d rs rt : Reg) (s : State) : Res State :=
  if evenReg d && evenReg rs && evenReg rt then
    let lo := element (s.getR rs) (s.getR rt)
    let hi := element (s.getR (oddOf rs)) (s.getR (oddOf rt))
    .next ({ s.retire 1 with usr := usrSaturate (lo.2 || hi.2) s.usr }.setRR d (hi.1 ++ lo.1))
  else .refused .oddPair

/-- `Rd = vaddh(Rs, Rt)`: two halfword elements, added by an operation the spec does not give (R158). DESIGN CHOICE (log 45):
"lane order" is not stated; here the elements in bits 15:0 of both sources give bits 15:0 of Rd, and those in bits 31:16
give bits 31:16. -/
def contractVaddh (element : BitVec 16 → BitVec 16 → BitVec 16) (d rs rt : Reg) (s : State) : Res State :=
  let lo := element ((s.getR rs).extractLsb' 0 16) ((s.getR rt).extractLsb' 0 16)
  let hi := element ((s.getR rs).extractLsb' 16 16) ((s.getR rt).extractLsb' 16 16)
  .next ((s.retire 1).setR d (hi ++ lo))

/-- `Rdd = valignb(Rtt, Rss, #imm)`: a pair from two pairs, by an operation the spec does not give (R158). -/
def contractValignb (align : DWord → DWord → DWord) (d rt rs : Reg) (s : State) : Res State :=
  if evenReg d && evenReg rt && evenReg rs then
    .next ((s.retire 1).setRR d (align (s.getRR rt) (s.getRR rs)))
  else .refused .oddPair

/-! ### Floating point (R159, R182, R205) -/

/-- Whether an instruction is a transfer to USR. -/
def writesUsr (i : Instr) : Bool := (destsOf i).contains (.control .usr)

/-- A general register or a general register pair, as vector and floating-point instructions take them (R11, R13). -/
inductive GeneralOperand where
  | single (r : Reg)
  | pair (r : Reg)
  deriving DecidableEq, Repr

/-- Whether an operand names a register or a pair: a pair is named by an even number (R13). -/
def GeneralOperand.named : GeneralOperand → Bool
  | .single _ => true
  | .pair r => evenReg r

/-- The registers an operand stands for. -/
def GeneralOperand.regs : GeneralOperand → List Reg
  | .single r => [r]
  | .pair r => [r, oddOf r]

/-- The value of an operand, a single register's in bits 31:0. -/
def State.getOperand (s : State) : GeneralOperand → DWord
  | .single r => (s.getR r).zeroExtend 64
  | .pair r => s.getRR r

/-- The write of an operand: a single register takes bits 31:0. -/
def State.setOperand (s : State) (d : GeneralOperand) (v : DWord) : State :=
  match d with
  | .single r => s.setR r (v.extractLsb' 0 32)
  | .pair r => s.setRR r v

/-- A floating-point instruction. The IEEE conditions it meets (bit k as in Fault.floatingPoint) and its result are what the
spec leaves open: functions of the rounding mode FPRND and of its source operands. It may not share its packet with a
transfer to USR (R205); it has no meaning unless FPCOPROC is 11 (R36, U7); a condition whose enable governs raises (R182);
the others set their sticky flags (R41, R159). DESIGN CHOICE (log 36): formats and destinations are not stated (R159, N10);
here every source and the one destination is a general register or a pair (R11), and no floating-point instruction writes
a predicate or a second destination. -/
def contractFloat (mates : List Instr) (conditions : RoundingMode → List DWord → BitVec 5)
    (result : RoundingMode → List DWord → DWord) (sources : List GeneralOperand) (d : GeneralOperand) (s : State) : Res State :=
  if mates.any writesUsr then .refused .usrGroupedWithFloat
  else if !usrIeee s.usr then .refused .fpcoprocNotIeee
  else if !(d.named && sources.all GeneralOperand.named) then .refused .oddPair
  else
    let met := conditions (usrRounding s.usr) (sources.map s.getOperand)
    if met &&& s.governingEnables ≠ 0 then raise (.floatingPoint (met &&& s.governingEnables))
    else .next ({ s.retire 1 with usr := usrSticky met s.usr }.setOperand d
      (result (usrRounding s.usr) (sources.map s.getOperand)))

/-! ### Loads and addressing modes (R84, R160 to R165) -/

/-- The widths of the load mnemonics memb, memh, memw, memd (R82). -/
inductive Width where
  | byte
  | half
  | word
  | double
  deriving DecidableEq, Repr

/-- The addressing forms of R84. -/
inductive AddrMode where
  /-- `(Rs)` (R160). -/
  | indirect (rs : Reg)
  /-- `(Rx++Mu)` (R161). -/
  | autoIncrement (rx : Reg) (u : Fin 2)
  /-- `(Rx++#imm:circ(Mu))` (R162). -/
  | circularImm (rx : Reg) (imm : Word) (u : Fin 2)
  /-- Circular with auto-increment register, the increment held in Mu's I value (R163). -/
  | circularReg (rx : Reg) (u : Fin 2)
  /-- `(Rx++Mu:brev)` (R164). -/
  | bitReversed (rx : Reg) (u : Fin 2)
  /-- `(GP+#imm)` (R165). -/
  | gpRelative (offset : Word)
  deriving DecidableEq, Repr

/-- What a circular access reads to form its new pointer (R84): Rx, the increment, CSu and the length Mu[16:0]. -/
structure CircularOperands where
  pointer : Word
  increment : Word
  start : Word
  length : BitVec 17
  deriving DecidableEq, Repr

/-- What the spec leaves open of a load: whether an access with an increment comes before or after it (R161 to R164), how a
bit-reversed address is formed from the pointer (R164), how much the pointer moves for an I value (its sign and scaling,
R163), where in the buffer the pointer lands when it must wrap (R162, R163), and the bits above a loaded byte or halfword
(R160). -/
structure LoadOpen where
  incrementFirst : Bool
  bitReverse : Word → Word
  iStep : BitVec 11 → Word
  wrap : CircularOperands → Word
  fill : Word

/-- What a circular access through Mu reads (R84, R162, R163; CSu with Mu, D23). -/
def circularOperands (rx : Reg) (increment : Word) (u : Fin 2) (s : State) : CircularOperands :=
  ⟨s.getR rx, increment, s.getCS u, circLength (s.getM u)⟩

/-- Whether an address lies inside the buffer that begins at CSu and is Mu[16:0] long, in bytes (R162; log 35). -/
def CircularOperands.inside (c : CircularOperands) (a : Word) : Bool := (a - c.start).toNat < c.length.toNat

/-- The new pointer of a circular access: Rx plus the increment, modulo 2^32 (D12), where that lies inside the buffer; "the
pointer stays inside the buffer" (R162), but the wrap rule is not stated, so where the sum lies outside the pointer is an
open place in the buffer. A buffer of length 0 has no inside, and there it is wholly open (log 35). -/
def circularPointer (wrap : CircularOperands → Word) (c : CircularOperands) : Word :=
  if c.inside (c.pointer + c.increment) then c.pointer + c.increment
  else c.start + (wrap c).umod (c.length.zeroExtend 32)

/-- The pointer register an addressing form writes, with its new value: Rx + Mu for the auto-increment and bit-reversed
forms (R161, R164, D12), the circular pointer for the circular ones, whose increment is the immediate (R162) or follows from
the I value Mu[31:28] ++ Mu[23:17] (R163). DESIGN CHOICE (log 35, 46): the immediate has no range, and neither it nor Mu is
scaled. -/
def pointerUpdate (m : AddrMode) (o : LoadOpen) (s : State) : Option (Reg × Word) :=
  match m with
  | .indirect _ => none
  | .gpRelative _ => none
  | .autoIncrement rx u => some (rx, s.getR rx + s.getM u)
  | .bitReversed rx u => some (rx, s.getR rx + s.getM u)
  | .circularImm rx imm u => some (rx, circularPointer o.wrap (circularOperands rx imm u s))
  | .circularReg rx u => some (rx, circularPointer o.wrap (circularOperands rx (o.iStep (circI (s.getM u))) u s))

/-- The pointer that an access with an increment uses: Rx as it was, or its new value (R84: not stated; log 35). -/
def accessPointer (rx : Reg) (m : AddrMode) (o : LoadOpen) (s : State) : Word :=
  match pointerUpdate m o s with
  | some (_, v) => if o.incrementFirst then v else s.getR rx
  | none => s.getR rx

/-- The address of the access: the base register (R160), GP plus the offset (R165), the pointer (R161 to R163), or what
bit reversal makes of the pointer (R164). DESIGN CHOICE (log 46): the range and the scaling of the GP-relative immediate are
not stated (R84, R165); here any 32-bit offset is allowed and is added unscaled. -/
def loadAddress (m : AddrMode) (o : LoadOpen) (s : State) : Word :=
  match m with
  | .indirect rs => s.getR rs
  | .gpRelative offset => s.gp + offset
  | .autoIncrement rx _ => accessPointer rx m o s
  | .circularImm rx _ _ => accessPointer rx m o s
  | .circularReg rx _ => accessPointer rx m o s
  | .bitReversed rx _ => o.bitReverse (accessPointer rx m o s)

/-- A circular access needs bits 27:24 of its modifier register to be 0 (D22, U8). -/
def circularAllowed (m : AddrMode) (s : State) : Bool :=
  match m with
  | .circularImm _ _ u => circPlain (s.getM u)
  | .circularReg _ u => circPlain (s.getM u)
  | .indirect _ => true
  | .gpRelative _ => true
  | .autoIncrement _ _ => true
  | .bitReversed _ _ => true

/-- The registers a load of a width writes. -/
def loadDests (w : Width) (d : Reg) : List Reg :=
  match w with
  | .double => [d, oddOf d]
  | .byte => [d]
  | .half => [d]
  | .word => [d]

/-- The write of the loaded value (R160): a doubleword to a pair, a word to a register, a byte or halfword below the bits
whose extension the spec does not state (R82). -/
def loadInto (w : Width) (d : Reg) (ea fill : Word) (start acc : State) : Res State :=
  match w with
  | .byte => andThen (start.memRead ea 1) fun v => .next (acc.setR d (fill.extractLsb' 8 24 ++ v))
  | .half => andThen (start.memRead ea 2) fun v => .next (acc.setR d (fill.extractLsb' 16 16 ++ v))
  | .word => andThen (start.memRead ea 4) fun v => .next (acc.setR d v)
  | .double => if evenReg d then andThen (start.memRead ea 8) fun v => .next (acc.setRR d v) else .refused .oddPair

/-- The state with an addressing form's pointer register written. -/
def State.setPointer (s : State) (p : Option (Reg × Word)) : State :=
  match p with
  | none => s
  | some (rx, v) => s.setR rx v

/-- `dest = mem{b,h,w,d}(address)` (R160 to R165): a destination that is also the pointer is refused (U21), the loaded
value goes to the destination, and the pointer register of the form is updated. DESIGN CHOICE (log 41): "a base inside the
destination pair is not shown" (R160); here an indirect load reads its base first and its destination then overwrites it. -/
def contractLoad (w : Width) (d : Reg) (m : AddrMode) (o : LoadOpen) (s : State) : Res State :=
  if (pointerUpdate m o s).any (fun p => (loadDests w d).contains p.1) then .refused .doubleWrite
  else if !circularAllowed m s then .refused .circularReservedBits
  else
    andThen (loadInto w d (loadAddress m o s) o.fill s (s.retire 1)) fun t => .next (t.setPointer (pointerUpdate m o s))

/-! ### System instructions (R166, R167) -/

/-- `l2fetch`: a prefetch is in progress from now on (R166, R33); no general register and no memory changes. -/
def contractL2fetch (s : State) : Res State := .next { s.retire 1 with prefetchOpen := true }

/-- `isync`: the trap enables in effect become USR[29:25] (R167, R206). -/
def contractIsync (s : State) : Res State := .next { s.retire 1 with trapEnables := usrTrapEnables s.usr }

end Sys2Proof.Machine
end

