-- ==== Sys2Proof/Safety.lean ====
section
/-! DEFINITION. The terms the statements use: the invariant of a well-formed machine, what no packet of a program may
change, and reachability. -/

namespace Sys2Proof.Machine

/-- The mask of USR's reserved bits 30, 24, 19:18, 17 and 7:6 (R43). -/
def usrReservedMask : Word := 0x410E00C0

/-- A well-formed machine: memory is canonical, HFI does not hold its reserved value ("a launch state with HFI = 11 is
likewise not admitted", U2), and the reserved fields and FPCOPROC hold the run's parameters (D7, D26). -/
structure State.Inv (s : State) : Prop where
  memory : Mem.wf s.mem = true
  hfi : hfiReserved s.usr = false
  reserved : s.usr &&& usrReservedMask = Config.usrReserved &&& usrReservedMask
  fpcoproc : s.usr.extractLsb' 20 2 = Config.fpcoproc
  gpReserved : s.gp.extractLsb' 0 6 = Config.gpReserved

/-- What is constant during a run of register transfers: the fields system software or the platform owns (D10, D13, D16),
the program text (R89), the enables in effect, which only isync changes (R206), memory (R91), and the bits of USR and GP
that no transfer writes (R44, R54). -/
structure Unchangeable (s t : State) : Prop where
  mode : t.mode = s.mode
  upcycleAccess : t.upcycleAccess = s.upcycleAccess
  pktcountAccess : t.pktcountAccess = s.pktcountAccess
  utimerAccess : t.utimerAccess = s.utimerAccess
  upmucntAccess : t.upmucntAccess = s.upmucntAccess
  addressMap : t.addressMap = s.addressMap
  pcAlignment : t.pcAlignment = s.pcAlignment
  text : t.text = s.text
  trapEnables : t.trapEnables = s.trapEnables
  memory : ∀ a, t.byteAt a = s.byteAt a
  usrKept : t.usr &&& usrKeepMask = s.usr &&& usrKeepMask
  gpKept : t.gp.extractLsb' 0 6 = s.gp.extractLsb' 0 6

/-- The states that a run of steps reaches from a launch state. -/
inductive ReachableFrom (launch : State) : State → Prop where
  | start : ReachableFrom launch launch
  | step {s t : State} : ReachableFrom launch s → Sys2Proof.Machine.step s = .next t → ReachableFrom launch t

/-- A run of the machine that stops with a fault is unsafe; this says that the next step does not. -/
def State.NoFault (s : State) : Prop := ∀ f, Sys2Proof.Machine.step s ≠ .fault f

end Sys2Proof.Machine
end

