-- ==== Sys2Proof/Certificates/Slice0/Obligations.lean ====
section
/-! DEFINITION. The statements for the provers, and the terms they are written in. UPCYCLE, UTIMER and UPMUCNT0..7 are moved
by the environment in every packet (R168, R62, R63), so no frame below speaks of their values. -/

namespace Sys2Proof.Claims

open Sys2Proof.Machine

/-! ### The terms of the statements -/

/-- The control registers as a program's writes leave them; the ones that every packet moves on its own (PC, the counters)
and the reserved numbers are no part of a frame. -/
def stored (s : State) : CReg → Word
  | .sa0 => s.sa0
  | .lc0 => s.lc0
  | .sa1 => s.sa1
  | .lc1 => s.lc1
  | .p30 => s.getP 3 ++ s.getP 2 ++ s.getP 1 ++ s.getP 0
  | .m0 => s.m0
  | .m1 => s.m1
  | .usr => s.usr
  | .ugp => s.ugp
  | .gp => s.gp
  | .cs0 => s.cs0
  | .cs1 => s.cs1
  | .frameLimit => s.frameLimit
  | .frameKey => s.frameKey
  | .pc | .upcycleLo | .upcycleHi | .pktcountLo | .pktcountHi | .utimerLo | .utimerHi | .c5 | .c20 | .c21 | .c22 | .c23
  | .c24 | .c25 | .c26 | .c27 | .c28 | .c29 => 0

/-- The control registers whose 32 bits a transfer replaces whole. -/
def plainControls : List CReg :=
  [.sa0, .lc0, .sa1, .lc1, .p30, .m0, .m1, .ugp, .cs0, .cs1, .frameLimit, .frameKey]

/-- The control registers that hold a half of a counter which system software can disable. -/
def counterControls : List CReg := [.upcycleLo, .upcycleHi, .pktcountLo, .pktcountHi, .utimerLo, .utimerHi]

/-- Whether access to the counter behind a control register is disabled. -/
def disabledCounter (s : State) (c : CReg) : Prop :=
  (c = .upcycleLo ∨ c = .upcycleHi) ∧ s.upcycleAccess = false ∨ (c = .pktcountLo ∨ c = .pktcountHi) ∧ s.pktcountAccess = false ∨
    (c = .utimerLo ∨ c = .utimerHi) ∧ s.utimerAccess = false

/-- Whether an instruction names UGP, as source or destination, alone or in the pair C11:10. -/
def namesUgp : Instr → Bool
  | .rdCs _ c => c == .ugp
  | .cdRs c _ => c == .ugp
  | .rddCss _ c => c == .ugp
  | .cddRss c _ => c == .ugp
  | .rdPs _ _ => false

/-- The even registers of the pairs whose halves are both plain. -/
def plainPairs : List CReg := [.sa0, .sa1, .m0, .cs0, .frameLimit]

/-- The value a transfer reads from a control register where the spec fixes it: not for USR, whose bit 31 is a draw, not for
UPCYCLE and UTIMER with access enabled, which are draws, and not for the reserved numbers (R125). -/
def fixedRead (s : State) : CReg → Option Word
  | .pc => some s.pc
  | .pktcountLo => some (if s.pktcountAccess then s.pktcount.extractLsb' 0 32 else 0)
  | .pktcountHi => some (if s.pktcountAccess then s.pktcount.extractLsb' 32 32 else 0)
  | .upcycleLo => if s.upcycleAccess then none else some 0
  | .upcycleHi => if s.upcycleAccess then none else some 0
  | .utimerLo => if s.utimerAccess then none else some 0
  | .utimerHi => if s.utimerAccess then none else some 0
  | .usr | .c5 | .c20 | .c21 | .c22 | .c23 | .c24 | .c25 | .c26 | .c27 | .c28 | .c29 => none
  | .sa0 => some s.sa0
  | .lc0 => some s.lc0
  | .sa1 => some s.sa1
  | .lc1 => some s.lc1
  | .p30 => some (s.getP 3 ++ s.getP 2 ++ s.getP 1 ++ s.getP 0)
  | .m0 => some s.m0
  | .m1 => some s.m1
  | .ugp => some s.ugp
  | .gp => some s.gp
  | .cs0 => some s.cs0
  | .cs1 => some s.cs1
  | .frameLimit => some s.frameLimit
  | .frameKey => some s.frameKey

/-- What system software and the platform own is as it was: the access switches, the mode, the address map, the legal PC values,
the program text and the address the fetch recorded. -/
structure Owned (s t : State) : Prop where
  switches : t.upcycleAccess = s.upcycleAccess ∧ t.pktcountAccess = s.pktcountAccess ∧
    t.utimerAccess = s.utimerAccess ∧ t.upmucntAccess = s.upmucntAccess
  mode : t.mode = s.mode
  platform : t.addressMap = s.addressMap ∧ t.pcAlignment = s.pcAlignment ∧ t.text = s.text ∧ t.nextPc = s.nextPc

/-- What a completed packet leaves as it was: every general register but the listed ones, every control register but the
listed ones, the enables in effect, what system software and the platform own, and every byte of memory. -/
structure Frame (s t : State) (generals : List Reg) (controls : List CReg) : Prop where
  generals : ∀ r, r ∉ generals → t.getR r = s.getR r
  controls : ∀ c, c ∉ controls → stored t c = stored s c
  trapEnables : t.trapEnables = s.trapEnables
  owned : Owned s t
  memory : ∀ a, t.byteAt a = s.byteAt a

/-- The packet counter after a packet that does not write it: one more exactly if the enable of the current mode is set,
PCUME (bit 10) in user mode, PCGME (11) in guest mode, PCMME (12) in monitor mode, modulo 2^64. -/
def Counted (s t : State) : Prop :=
  t.pktcount = s.pktcount +
    (if (s.mode = .user ∧ s.usr.getLsbD 10) ∨ (s.mode = .guest ∧ s.usr.getLsbD 11) ∨ (s.mode = .monitor ∧ s.usr.getLsbD 12)
      then 1 else 0)

/-- A packet of a register transfer that writes only the listed registers: framed, counted, the PC at the next packet, the
prefetch engine as it was. -/
def Transfers (s t : State) (generals : List Reg) (controls : List CReg) : Prop :=
  Frame s t generals controls ∧ Counted s t ∧ t.pc = s.nextPc ∧ t.prefetchOpen = s.prefetchOpen

/-- The bytes of instructions that more words of their packet follow: their words with parse bits 01 (R106, log 2). -/
def innerBytes (is : List Instr) : List Byte := is.flatMap fun i => bytesOfWord (asInnerWord (encode i))

end Sys2Proof.Claims

open Sys2Proof Sys2Proof.Machine Sys2Proof.Claims

/-! ### Encoding -/

/-- Decode and encode agree for every well-formed instruction, whatever follows it; the bit patterns are the spec's general
knowledge (R105, log 1). -/
def Obligations.DecodeEncodeRoundTrip : Prop :=
  ∀ (i : Instr) (rest : List Byte), i.wellFormed = true → decode (encodeBytes i ++ rest) = .ok (i, rest)

/-- A decoded word is its instruction's word on every bit that the row fixes or that holds an operand: bits 31:16 and 4:0, and
for `Rd=Ps` bits 31:24, 22, 17:16 and 4:0 (R105, log 1); what is decoded is well-formed, and its word is no duplex (R106,
log 2). -/
def Obligations.DecodedWordHasItsOperandBits : Prop :=
  ∀ (w : Word) (i : Instr), decodeWord w = .ok i →
    i.wellFormed = true ∧ w.extractLsb' 14 2 ≠ 0#2 ∧
      match i with
      | .rdPs _ _ => encode i &&& 0xFF43001F#32 = w &&& 0xFF43001F#32
      | _ => encode i &&& 0xFFFF001F#32 = w &&& 0xFFFF001F#32

/-- A packet of one to four well-formed instructions, encoded with parse bits 11 in its last word and 01 in the others, decodes to
them; and every packet that decodes has at most four words, one for each instruction, with parse bits 11 in the last;
a duplex word is refused. After any number of well-formed instructions: a fifth word is refused; so is a word before the last with
parse bits 11 or 00, one of the first two words of several with parse bits 10, the end of a hardware loop, and a last word with
parse bits 01, 10 or 00 (R105, R106, R169, log 1, 2). -/
def Obligations.PacketOfEncodedWordsDecodes : Prop :=
  (∀ is : List Instr, is.length ≤ 4 → (∀ i ∈ is, i.wellFormed = true) → decodePacket (encodePacket is) = .ok is) ∧
    (∀ (bytes : List Byte) (is : List Instr), decodePacket bytes = .ok is →
      bytes.length = 4 * is.length ∧ is.length ≤ 4 ∧
        ∀ b, bytes[bytes.length - 3]? = some b → b.extractLsb' 6 2 = 3#2) ∧
    (∀ w : Word, w.extractLsb' 14 2 = 0#2 → decodeWord w = .error (.duplex w)) ∧
    ∀ (before : List Instr) (v : Word) (rest : List Byte), (∀ i ∈ before, i.wellFormed = true) →
      (before.length = 4 → decodePacket (innerBytes before ++ bytesOfWord v ++ rest) = .error .packetTooLong) ∧
      (before.length < 4 → rest ≠ [] → v.extractLsb' 14 2 = 3#2 ∨ v.extractLsb' 14 2 = 0#2 →
        decodePacket (innerBytes before ++ bytesOfWord v ++ rest) = .error (.badFraming v)) ∧
      (before.length < 2 → rest ≠ [] → v.extractLsb' 14 2 = 2#2 →
        decodePacket (innerBytes before ++ bytesOfWord v ++ rest) = .error (.loopEnd v)) ∧
      (before.length < 4 → v.extractLsb' 14 2 = 1#2 ∨ v.extractLsb' 14 2 = 2#2 →
        decodePacket (innerBytes before ++ bytesOfWord v) = .error (.badFraming v)) ∧
      (before.length < 4 → v.extractLsb' 14 2 = 0#2 → decodePacket (innerBytes before ++ bytesOfWord v) = .error (.duplex v))

/-- Words of the spec's table of transfer examples decode to the instructions they stand for (general knowledge, log 1). -/
def Obligations.SampleWordsDecode : Prop :=
  decode [0x09, 0xC0, 0x09, 0x6A] = .ok (.rdCs 9 .pc, []) ∧
  decode [0x03, 0xC0, 0x36, 0x62] = .ok (.cdRs .lc1 22, []) ∧
  decode [0x08, 0xC0, 0x12, 0x68] = .ok (.rddCss 8 .pktcountLo, []) ∧
  decode [0x00, 0xC0, 0x24, 0x63] = .ok (.cddRss .sa0 4, []) ∧
  decode [0x08, 0xC0, 0x41, 0x89] = .ok (.rdPs 8 1, [])

/-! ### One step is one packet -/

/-- When the packet at the PC decodes to one instruction, a step is exec of that instruction, with the address of the
packet that follows taken from the program text (log 10, 11). -/
def Obligations.StepRunsDecodedInstruction : Prop :=
  ∀ (s : State) (p : TextPacket) (i : Instr), s.fetch = .next p → decodePacket p.bytes = .ok [i] →
    step s = exec i { s with nextPc := p.next }

/-- Whatever instructions the packet at the PC holds, one or several, a step executes them as one packet (D18(b),
log 18). -/
def Obligations.StepRunsWholePacket : Prop :=
  ∀ (s : State) (p : TextPacket) (is : List Instr), s.fetch = .next p → decodePacket p.bytes = .ok is →
    step s = execPacket is { s with nextPc := p.next }

/-- What the fetch finds is what the step runs, or the step is refused. A word placed for the fetch is run, from every state
whose program text fits and whose PC is legal and leaves it room (log 2, 10, 12). Otherwise the step is refused: at a PC that
`pc_alignment` excludes (D25, log 12), where no packet of the text stands at the PC (log 10), where a packet of the text
reaches 2^32 (D25, log 12), where the packet's bytes do not decode (log 2), and at a packet without bytes (log 18). -/
def Obligations.FetchFindsItsPacketOrIsRefused : Prop :=
  ∀ s : State,
    (∀ i : Instr, i.wellFormed = true → textFits s.text = true → s.pc.toNat % s.pcAlignment = 0 → s.pc.toNat + 4 < 4294967296 →
      step (s.withFetchWord 32 (encode i).toNat) =
        exec i { s.withFetchWord 32 (encode i).toNat with nextPc := s.pc + 4 }) ∧
    (s.pc.toNat % s.pcAlignment ≠ 0 → step s = .refused (.illegalPc s.pc)) ∧
    (s.pc.toNat % s.pcAlignment = 0 → (∀ p ∈ s.text, p.addr ≠ s.pc) → step s = .refused (.noPacketAt s.pc)) ∧
    (s.pc.toNat % s.pcAlignment = 0 → (∃ p ∈ s.text, p.addr = s.pc) →
      (∃ q ∈ s.text, 4294967296 ≤ q.addr.toNat + q.bytes.length) → step s = .refused .textReachesTop) ∧
    ∀ p : TextPacket, s.fetch = .next p →
      (∀ e : DecodeError, decodePacket p.bytes = .error e → step s = .refused (.undecodable e)) ∧
      (p.bytes = [] → step s = .refused .emptyPacket)

/-- Every instruction of a packet that reads PC, alone or in C9:8, reads the address of that packet, whatever its place in the
packet (D3, D18(b), log 18, 24). -/
def Obligations.PacketReadsOneProgramCounter : Prop :=
  ∀ (is : List Instr) (s t : State) (d : Reg), execPacket is s = .next t →
    (Instr.rdCs d .pc ∈ is → t.getR d = s.pc) ∧ (Instr.rddCss d .usr ∈ is → t.getR (oddOf d) = s.pc)

/-- Reads in a packet come before its writes: a general register copied out of a plain control register in the packet that
overwrites it receives the old value, and the control register the general register's old value (D18(b), log 18). -/
def Obligations.PacketReadsBeforeItWrites : Prop :=
  ∀ (is : List Instr) (s t : State) (c : CReg) (d r : Reg), c ∈ plainControls → execPacket is s = .next t →
    Instr.rdCs d c ∈ is → Instr.cdRs c r ∈ is → t.getR d = stored s c ∧ stored t c = s.getR r

/-- A packet is counted once however many instructions it holds, unless one of them writes PKTCOUNT. -/
def Obligations.PacketCountsOnce : Prop :=
  ∀ (is : List Instr) (s t : State), execPacket is s = .next t →
    Dest.control .pktcountLo ∉ is.flatMap destsOf → Dest.control .pktcountHi ∉ is.flatMap destsOf → Counted s t

/-- A packet in which two instructions, at two places, name one register as destination is refused (D18(b), log 18). -/
def Obligations.PacketWithDoubleWriteIsRefused : Prop :=
  ∀ (is : List Instr) (i j : Instr) (x : Dest) (s : State), [i, j].Sublist is → x ∈ destsOf i → x ∈ destsOf j →
    execPacket is s = .refused .doubleWrite

/-- A step leaves every register that no instruction of its packet names as destination as it was, and every byte of memory; the
PC becomes the packet's successor in the program text (log 10, 18). -/
def Obligations.StepFrame : Prop :=
  ∀ (s t : State) (p : TextPacket) (is : List Instr), s.fetch = .next p → decodePacket p.bytes = .ok is → step s = .next t →
    (∀ r, Dest.general r ∉ is.flatMap destsOf → t.getR r = s.getR r) ∧
      (∀ c, Dest.control c ∉ is.flatMap destsOf → stored t c = stored s c) ∧
      (∀ a, t.byteAt a = s.byteAt a) ∧ t.pc = p.next

/-! ### `Rd = Cs` -/

/-- `Rd = Cs` completes with the register's value in Rd for every register number and state in which the spec fixes that value,
and changes nothing but Rd. Every d is allowed. A read of GP returns its bits 5:0 too (log 5), a PC read the packet's own
address (D3, log 24). -/
def Obligations.RdCsCopiesControl : Prop :=
  ∀ (d : Reg) (c : CReg) (s : State) (v : Word), fixedRead s c = some v →
    ∃ t, exec (.rdCs d c) s = .next t ∧ t.getR d = v ∧ Transfers s t [d] []

/-- `Rd = USR` completes; Rd receives the stored bits 30:0; bit 31, PFA, is 0 if no prefetch may be in progress; and a read that
returned 0 leaves no prefetch in progress, a read that returned 1 leaves the engine as it was (D20, log 16). -/
def Obligations.RdCsReadsUsr : Prop :=
  ∀ (d : Reg) (s : State),
    ∃ t, exec (.rdCs d .usr) s = .next t ∧ (t.getR d).extractLsb' 0 31 = s.usr.extractLsb' 0 31 ∧
      (s.prefetchOpen = false → (t.getR d).getLsbD 31 = false) ∧ t.prefetchOpen = (t.getR d).getLsbD 31 ∧
      Frame s t [d] [] ∧ Counted s t ∧ t.pc = s.nextPc

/-- With access enabled, `Rd = Cs` of a half of UPCYCLE or UTIMER completes, whatever value the environment gives, and changes
nothing but Rd (D10, log 13, 14). -/
def Obligations.RdCsReadsRunningCounter : Prop :=
  ∀ (d : Reg) (c : CReg) (s : State),
    ((c = .upcycleLo ∨ c = .upcycleHi) ∧ s.upcycleAccess = true) ∨ ((c = .utimerLo ∨ c = .utimerHi) ∧ s.utimerAccess = true) →
    ∃ t, exec (.rdCs d c) s = .next t ∧ Transfers s t [d] []

/-- A transfer that names a reserved control register number, C5 or C20 to C29, alone or as a half of its pair, is refused (D5,
log 20). The pair forms are named by even numbers, so the pair fields are 4, 20, 22, 24, 26 and 28. -/
def Obligations.ReservedNumbersAreRefused : Prop :=
  ∀ (r : Reg) (c : CReg) (s : State),
    (c.num = 5 ∨ (20 ≤ c.num ∧ c.num ≤ 29) →
      exec (.rdCs r c) s = .refused (.reservedControl c) ∧ exec (.cdRs c r) s = .refused (.reservedControl c)) ∧
    (c.num ∈ [4, 20, 22, 24, 26, 28] → evenReg r = true →
      (∃ x, exec (.rddCss r c) s = .refused (.reservedControl x)) ∧ (∃ x, exec (.cddRss c r) s = .refused (.reservedControl x)))

/-! ### `Cd = Rs` -/

/-- `Cd = Rs` completes for a plain control register: its 32 bits become Rs, and nothing else changes. -/
def Obligations.CdRsStoresPlainControl : Prop :=
  ∀ (c : CReg) (r : Reg) (s : State), c ∈ plainControls →
    ∃ t, exec (.cdRs c r) s = .next t ∧ stored t c = s.getR r ∧ Transfers s t [] [c]

/-- C4 is the four predicates as one word, P3 in bits 31:24 down to P0 in bits 7:0, read and written. -/
def Obligations.PredicateQuadrupleIsOneWord : Prop :=
  ∀ (d r : Reg) (s : State),
    (∃ t, exec (.cdRs .p30 r) s = .next t ∧ t.getP 3 = (s.getR r).extractLsb' 24 8 ∧ t.getP 2 = (s.getR r).extractLsb' 16 8 ∧
      t.getP 1 = (s.getR r).extractLsb' 8 8 ∧ t.getP 0 = (s.getR r).extractLsb' 0 8) ∧
    (∃ t, exec (.rdCs d .p30) s = .next t ∧ t.getR d = s.getP 3 ++ s.getP 2 ++ s.getP 1 ++ s.getP 0)

/-- `USR = Rs` replaces the fields marked RW and keeps the fields marked R (D6, log 21), unless the source holds the reserved HFI
value 11, when it is refused (D27, log 20); the trap enables in effect stay as they were. -/
def Obligations.CdRsWritesUsrThroughItsMask : Prop :=
  ∀ (r : Reg) (s : State),
    (((s.getR r).extractLsb' 15 2 = 3#2 → exec (.cdRs .usr r) s = .refused .reservedHfi)) ∧
    ((s.getR r).extractLsb' 15 2 ≠ 3#2 →
      ∃ t, exec (.cdRs .usr r) s = .next t ∧ t.usr = (s.getR r &&& 0x3EC1FF3F#32) ||| (s.usr &&& 0xC13E00C0#32) ∧
        Transfers s t [] [.usr])

/-- `GP = Rs` replaces bits 31:6 and keeps bits 5:0 (D6, log 21). -/
def Obligations.CdRsWritesGpAboveBitSix : Prop :=
  ∀ (r : Reg) (s : State),
    ∃ t, exec (.cdRs .gp r) s = .next t ∧ t.gp.extractLsb' 6 26 = (s.getR r).extractLsb' 6 26 ∧
      t.gp.extractLsb' 0 6 = s.gp.extractLsb' 0 6 ∧ Transfers s t [] [.gp]

/-- A transfer to PKTCOUNT with access enabled: the 64-bit count is incremented if the packet counts, then the named half, or
for the pair the whole, is overwritten (D11, log 19). With access disabled it is refused (D10, log 19). -/
def Obligations.PacketCountWrites : Prop :=
  ∀ (r : Reg) (s : State),
    (s.pktcountAccess = true →
      (∃ t u, exec (.cdRs .pktcountLo r) s = .next t ∧ t.pktcount = u ++ s.getR r ∧
        u = (s.pktcount + (if s.counting then 1 else 0)).extractLsb' 32 32 ∧ Frame s t [] [] ∧ t.pc = s.nextPc ∧
        t.prefetchOpen = s.prefetchOpen) ∧
      (∃ t u, exec (.cdRs .pktcountHi r) s = .next t ∧ t.pktcount = s.getR r ++ u ∧
        u = (s.pktcount + (if s.counting then 1 else 0)).extractLsb' 0 32 ∧ Frame s t [] [] ∧ t.pc = s.nextPc ∧
        t.prefetchOpen = s.prefetchOpen) ∧
      (evenReg r = true →
        ∃ t, exec (.cddRss .pktcountLo r) s = .next t ∧ t.pktcount = s.getR (oddOf r) ++ s.getR r ∧ Frame s t [] [] ∧
          t.pc = s.nextPc ∧ t.prefetchOpen = s.prefetchOpen)) ∧
    (s.pktcountAccess = false →
      exec (.cdRs .pktcountLo r) s = .refused .pktcountWriteDisabled ∧
      exec (.cdRs .pktcountHi r) s = .refused .pktcountWriteDisabled ∧
      (evenReg r = true → exec (.cddRss .pktcountLo r) s = .refused .pktcountWriteDisabled))

/-- A transfer to PC, UPCYCLE or UTIMER, alone or in the pairs C9:8, C15:14 and C31:30, is refused, whatever the source (D4,
log 20). -/
def Obligations.ReadOnlyRegistersAreNotWritten : Prop :=
  ∀ (r : Reg) (s : State),
    exec (.cdRs .pc r) s = .refused (.readOnlyControl .pc) ∧
    exec (.cdRs .utimerLo r) s = .refused (.readOnlyControl .utimerLo) ∧
    exec (.cdRs .utimerHi r) s = .refused (.readOnlyControl .utimerHi) ∧
    exec (.cdRs .upcycleLo r) s = .refused (.noStatedWrite .upcycleLo) ∧
    exec (.cdRs .upcycleHi r) s = .refused (.noStatedWrite .upcycleHi) ∧
    ∀ c : CReg, c = .usr ∨ c = .upcycleLo ∨ c = .utimerLo → ∃ q, exec (.cddRss c r) s = .refused q

/-! ### The pair forms -/

/-- `Rdd = Css` completes where the spec fixes both halves: the odd general register receives the odd control register, the even
the even (D2, log 23), and nothing else changes. -/
def Obligations.RddCssCopiesPair : Prop :=
  ∀ (d : Reg) (c : CReg) (s : State) (hi lo : Word), evenReg d = true → evenCReg c = true →
    fixedRead s (oddOfC c) = some hi → fixedRead s c = some lo →
    ∃ t, exec (.rddCss d c) s = .next t ∧ t.getR (oddOf d) = hi ∧ t.getR d = lo ∧ Transfers s t [d, oddOf d] []

/-- `Rdd = C9:8` puts the packet's address into the odd register and USR, as `Rd = USR` reads it, into the even one. -/
def Obligations.RddCssReadsPcAndUsr : Prop :=
  ∀ (d : Reg) (s : State), evenReg d = true →
    ∃ t u, exec (.rddCss d .usr) s = .next t ∧ exec (.rdCs d .usr) s = .next u ∧ t.getR (oddOf d) = s.pc ∧
      t.getR d = u.getR d ∧ t.prefetchOpen = u.prefetchOpen ∧ Frame s t [d, oddOf d] [] ∧ Counted s t ∧ t.pc = s.nextPc

/-- `Rdd = UPCYCLE` and `Rdd = UTIMER` with access enabled complete and read ONE sample: the two halves are those that the half
reads would see at the same instant. -/
def Obligations.RddCssSamplesCounterOnce : Prop :=
  ∀ (d e : Reg) (s : State), evenReg d = true →
    (s.upcycleAccess = true →
      ∃ t u v, exec (.rddCss d .upcycleLo) s = .next t ∧ exec (.rdCs e .upcycleHi) s = .next u ∧
        exec (.rdCs e .upcycleLo) s = .next v ∧ t.getR (oddOf d) = u.getR e ∧ t.getR d = v.getR e ∧
        Transfers s t [d, oddOf d] []) ∧
    (s.utimerAccess = true →
      ∃ t u v, exec (.rddCss d .utimerLo) s = .next t ∧ exec (.rdCs e .utimerHi) s = .next u ∧
        exec (.rdCs e .utimerLo) s = .next v ∧ t.getR (oddOf d) = u.getR e ∧ t.getR d = v.getR e ∧
        Transfers s t [d, oddOf d] [])

/-- `Cdd = Rss` completes for the plain pairs: the even control register receives the even general register, the odd the odd
(D2, log 23), and nothing else changes. -/
def Obligations.CddRssStoresPlainPair : Prop :=
  ∀ (c : CReg) (r : Reg) (s : State), c ∈ plainPairs → evenReg r = true →
    ∃ t, exec (.cddRss c r) s = .next t ∧ stored t c = s.getR r ∧ stored t (oddOfC c) = s.getR (oddOf r) ∧
      Transfers s t [] [c, oddOfC c]

/-- `C11:10 = Rss` writes UGP from the even register and bits 31:6 of GP from the odd one (D6, log 21). -/
def Obligations.CddRssWritesGpAndUgp : Prop :=
  ∀ (r : Reg) (s : State), evenReg r = true →
    ∃ t, exec (.cddRss .ugp r) s = .next t ∧ t.ugp = s.getR r ∧
      t.gp.extractLsb' 6 26 = (s.getR (oddOf r)).extractLsb' 6 26 ∧ t.gp.extractLsb' 0 6 = s.gp.extractLsb' 0 6 ∧
      Transfers s t [] [.ugp, .gp]

/-- A pair form that names an odd register is refused, for a general and for a control operand (log 25). -/
def Obligations.OddPairsAreRefused : Prop :=
  ∀ (r : Reg) (c : CReg) (s : State), evenReg r = false ∨ evenCReg c = false →
    exec (.rddCss r c) s = .refused .oddPair ∧ exec (.cddRss c r) s = .refused .oddPair

/-! ### `Rd = Ps` -/

/-- `Rd = Ps` always completes: Rd is the predicate in bits 7:0 and 0 above (D8, log 22), and nothing else changes. -/
def Obligations.RdPsZeroExtendsPredicate : Prop :=
  ∀ (d : Reg) (p : PReg) (s : State),
    ∃ t, exec (.rdPs d p) s = .next t ∧ (t.getR d).extractLsb' 0 8 = s.getP p ∧ (t.getR d).extractLsb' 8 24 = 0#24 ∧
      Transfers s t [d] []

/-! ### The register transfers together -/

/-- UGP: transfers read and write every bit of it, and an instruction that does not name it neither reads
nor writes it: with any other value in UGP it does the same and leaves that value. -/
def Obligations.UserGeneralPointerIsTouchedByTransfersOnly : Prop :=
  ∀ (s t : State) (d r : Reg) (i : Instr) (v : Word),
    (∃ u, exec (.rdCs d .ugp) s = .next u ∧ u.getR d = s.ugp) ∧
    (∃ u, exec (.cdRs .ugp r) s = .next u ∧ u.ugp = s.getR r) ∧
    (namesUgp i = false → exec i s = .next t → t.ugp = s.ugp ∧ exec i { s with ugp := v } = .next { t with ugp := v })

/-- What a transfer writes to a plain control register, a transfer in the next packet reads back, whatever registers
are used. -/
def Obligations.WrittenControlReadsBack : Prop :=
  ∀ (s t : State) (c : CReg) (r d : Reg), c ∈ plainControls → exec (.cdRs c r) s = .next t →
    ∃ u, exec (.rdCs d c) t = .next u ∧ u.getR d = s.getR r

/-- After a 64-bit write of v to PKTCOUNT the next packet reads exactly v, with counting on or off (D11, log 19), and its own
count comes after the read. -/
def Obligations.WrittenPacketCountReadsBack : Prop :=
  ∀ (s t : State) (r d : Reg), evenReg r = true → evenReg d = true → exec (.cddRss .pktcountLo r) s = .next t →
    ∃ u, exec (.rddCss d .pktcountLo) t = .next u ∧ u.getR d = s.getR r ∧ u.getR (oddOf d) = s.getR (oddOf r) ∧
      u.pktcount = s.getRR r + (if t.counting then 1 else 0)

/-- No transfer needs a mode (R131 says it of user mode; of guest and monitor mode it is the model's choice, D16, log 8): what a
transfer does in one mode it does in every other, user mode among them, with the registers,
general and control, coming out the same; every read of a counter completes in every mode, and is 0 rather than a trap where
access is disabled, for a half and for the pair. -/
def Obligations.NoTransferNeedsPrivilege : Prop :=
  ∀ (i : Instr) (s t : State) (m n : Mode) (d e : Reg) (c : CReg),
    (exec i { s with mode := m } = .next t →
      ∃ u, exec i { s with mode := n } = .next u ∧ (∀ r, u.getR r = t.getR r) ∧ (∀ x, stored u x = stored t x)) ∧
    (c ∈ counterControls →
      (∃ u, exec (.rdCs d c) { s with mode := m } = .next u ∧ (disabledCounter s c → u.getR d = 0)) ∧
      (evenReg e = true → evenCReg c = true →
        ∃ u, exec (.rddCss e c) { s with mode := m } = .next u ∧
          (disabledCounter s c → u.getR (oddOf e) = 0 ∧ u.getR e = 0)))

/-- No transfer, and no packet of them, ends in a fault (every register holds a value: log 3). -/
def Obligations.StepNeverFaults : Prop := ∀ s : State, s.NoFault

/-- With access to PKTCOUNT disabled a program learns nothing of the count: two machines that differ in the count alone take the
same step, and differ afterwards in the count alone (the counter keeps counting, log 19). -/
def Obligations.DisabledPacketCountLeaksNothing : Prop :=
  ∀ (s t : State) (n : DWord), s.pktcountAccess = false → step s = .next t →
    step { s with pktcount := n } = .next { t with pktcount := n + (t.pktcount - s.pktcount) }

/-- Once USR.PFA may no longer be set, no step makes it so, and every read of USR returns 0 there (D20, log 16). -/
def Obligations.ClearedPrefetchStaysClear : Prop :=
  ∀ (s t : State) (d : Reg) (u : State), s.prefetchOpen = false →
    (step s = .next t → t.prefetchOpen = false) ∧ (exec (.rdCs d .usr) s = .next u → (u.getR d).getLsbD 31 = false)

/-! ### Invariants -/

/-- Every step keeps the machine well-formed: memory canonical, HFI not 11, the reserved bits of USR and GP and FPCOPROC at the
run's parameters (D6, D7, D26, D27). -/
def Obligations.EveryStepKeepsInv : Prop := ∀ s t : State, s.Inv → step s = .next t → t.Inv

/-- Reset is well-formed (log 3, 5, 6: the values are the model's). -/
def Obligations.ResetIsWellFormed : Prop := State.reset.Inv

/-- Reset leaves UPCYCLE at 0 and FPRND at 00; the machine starts in user mode (D9, D16, log 4, 8). -/
def Obligations.ResetLeavesStatedValues : Prop :=
  State.reset.upcycle = 0 ∧ State.reset.usr.extractLsb' 22 2 = 0#2 ∧ State.reset.mode = .user

/-- No step changes what system software and the platform own, the program text, the trap enables in effect, any byte of memory,
or a bit of USR or GP that no transfer writes (D6, D10, D15, D16). -/
def Obligations.StepChangesNothingFixed : Prop := ∀ s t : State, step s = .next t → Unchangeable s t

/-- Every state that a run reaches from a well-formed launch state is well-formed and agrees with the launch state on all that is
fixed. -/
def Obligations.RunsKeepInvAndFixedState : Prop :=
  ∀ launch t : State, launch.Inv → ReachableFrom launch t → t.Inv ∧ Unchangeable launch t

/-! ### Modifier registers -/

/-- The fields of a circular buffer specifier put together are the register: I[10:7] at 31:28, bits 27:24, I[6:0] at 23:17,
Length at 16:0. -/
def Obligations.CircularSpecifierIsItsFields : Prop :=
  ∀ m : Word, m = (circI m).extractLsb' 7 4 ++ m.extractLsb' 24 4 ++ (circI m).extractLsb' 0 7 ++ circLength m

/-! ### Memory -/

/-- An aligned store to RAM completes, and a load of the same width at the same address returns the stored value (D13, log 26),
for the widths 1, 2, 4 and 8. -/
def Obligations.StoreThenLoadReturnsValue : Prop :=
  ∀ (s : State) (addr : Word) (n : Nat) (v : BitVec (8 * n)), n = 1 ∨ n = 2 ∨ n = 4 ∨ n = 8 →
    aligned addr n = true → s.ram addr n = true →
    ∃ t, s.memWrite addr n v = .next t ∧ t.memRead addr n = .next v

/-- A store leaves every byte outside it as it was, and byte i of it holds bits 8i+7 to 8i of the value (little-endian, D13,
log 26). -/
def Obligations.StoreWritesItsBytesLittleEndian : Prop :=
  ∀ (s t : State) (addr : Word) (n : Nat) (v : BitVec (8 * n)), n ≤ 8 → s.memWrite addr n v = .next t →
    (∀ i, i < n → t.byteAt (byteKey addr i) = some (v.extractLsb' (8 * i) 8)) ∧
      ∀ a, (∀ i, i < n → a ≠ byteKey addr i) → t.byteAt a = s.byteAt a

/-- A store keeps memory in its canonical form. -/
def Obligations.StoreKeepsMemoryCanonical : Prop :=
  ∀ (s t : State) (addr : Word) (n : Nat) (v : BitVec (8 * n)), Mem.wf s.mem = true → s.memWrite addr n v = .next t →
    Mem.wf t.mem = true

/-- Two memories in canonical form that hold the same bytes are equal data. -/
def Obligations.CanonicalMemoryIsDeterminedByItsBytes : Prop :=
  ∀ m m' : Mem, Mem.wf m = true → Mem.wf m' = true → (∀ a, Mem.find a m = Mem.find a m') → m = m'

/-- A misaligned access is refused (D14, log 29); so is one outside the address map (D13, log 28). -/
def Obligations.BadAccessesAreRefused : Prop :=
  ∀ (s : State) (addr : Word) (n : Nat) (v : BitVec (8 * n)),
    (aligned addr n = false →
      s.memRead addr n = .refused (.misaligned addr.toNat) ∧ s.memWrite addr n v = .refused (.misaligned addr.toNat)) ∧
    (aligned addr n = true → s.ram addr n = false →
      s.memRead addr n = .refused (.outsideAddressMap addr.toNat) ∧
        s.memWrite addr n v = .refused (.outsideAddressMap addr.toNat))

/-! ### The register-side contracts (log 33) -/

/-- `loop0(start, Rs)`: LC0 = Rs and SA0 = start (R150); `loop1(start, Rs)`: LC1 = Rs and SA1 = start (R151); and nothing else
changes but what the spec leaves open, a write of USR.LPCFGE, bits 9:8 (the argument; log 33). -/
def Obligations.LoopSetupWritesItsRegisters : Prop :=
  ∀ (start : Word) (lpcfge : Option (BitVec 2)) (r : Reg) (s : State),
    (∃ t, contractLoop0 start lpcfge r s = .next t ∧ t.lc0 = s.getR r ∧ t.sa0 = start ∧
      t.usr &&& 0xFFFFFCFF#32 = s.usr &&& 0xFFFFFCFF#32 ∧
      t.usr.extractLsb' 8 2 = lpcfge.getD (s.usr.extractLsb' 8 2) ∧ Transfers s t [] [.lc0, .sa0, .usr]) ∧
    (∃ t, contractLoop1 start lpcfge r s = .next t ∧ t.lc1 = s.getR r ∧ t.sa1 = start ∧
      t.usr &&& 0xFFFFFCFF#32 = s.usr &&& 0xFFFFFCFF#32 ∧
      t.usr.extractLsb' 8 2 = lpcfge.getD (s.usr.extractLsb' 8 2) ∧ Transfers s t [] [.lc1, .sa1, .usr])

/-- `call`: LR receives the address of the packet after the call (DEDUCED, log 40) and the PC the target. -/
def Obligations.CallLinksAndJumps : Prop :=
  ∀ (target : Word) (s : State),
    ∃ t, contractCall target s = .next t ∧ t.getR 31 = s.nextPc ∧ t.pc = target ∧ Frame s t [31] [] ∧ Counted s t ∧
      t.prefetchOpen = s.prefetchOpen

/-- `allocframe`: a frame that would put SP below a FRAMELIMIT that is not 0 raises StackBounds (U19, log 44); otherwise, with an
aligned RAM slot, the word LR ^ FRAMEKEY is pushed into the frame, SP is lower by the frame's size (D12), FP points into the
frame, and nothing else changes: no other register, no byte outside that word, neither the enables in effect nor what system
software and the platform own. Where SP does not wrap, it moves to a lower address and the pushed word lies between the
new SP and the old one. With FRAMELIMIT = 0 the frame never raises. -/
def Obligations.AllocframeScramblesAndChecks : Prop :=
  ∀ (o : FrameOpen) (s : State),
    (s.frameLimit ≠ 0 ∧ (s.getR 29).toNat < s.frameLimit.toNat + o.size.toNat → contractAllocframe o s = .fault .stackBounds) ∧
    (s.frameLimit = 0 ∨ s.frameLimit.toNat + o.size.toNat ≤ (s.getR 29).toNat →
      aligned (s.getR 29 - o.size + o.slot) 4 = true → s.ram (s.getR 29 - o.size + o.slot) 4 = true →
      ∃ t, contractAllocframe o s = .next t ∧
        t.memRead (s.getR 29 - o.size + o.slot) 4 = .next (s.getR 31 ^^^ s.frameKey) ∧
        t.getR 29 = s.getR 29 - o.size ∧ t.getR 30 = s.getR 29 - o.size + o.fp ∧
        (o.size.toNat ≤ (s.getR 29).toNat →
          (t.getR 29).toNat < (s.getR 29).toNat ∧ (t.getR 29).toNat ≤ (s.getR 29 - o.size + o.slot).toNat ∧
            (s.getR 29 - o.size + o.slot).toNat + 4 ≤ (s.getR 29).toNat) ∧
        (∀ r, r ≠ 29 → r ≠ 30 → t.getR r = s.getR r) ∧
        (∀ c, stored t c = stored s c) ∧ Counted s t ∧ t.pc = s.nextPc ∧ t.trapEnables = s.trapEnables ∧ Owned s t ∧
        t.prefetchOpen = s.prefetchOpen ∧
        ∀ a, (∀ i, i < 4 → a ≠ byteKey (s.getR 29 - o.size + o.slot) i) → t.byteAt a = s.byteAt a) ∧
    (s.frameLimit = 0 → contractAllocframe o s ≠ .fault .stackBounds)

/-- `Rdd = vaddw(Rss, Rtt):sat`: the pair receives the elements' results, OVF becomes 1 if an element saturated and is otherwise
unchanged, no other bit of USR and no other register changes. `Rd = vaddh(Rs, Rt)` writes its two halfwords, and
`Rdd = valignb(Rtt, Rss, #imm)` its pair, and neither changes anything else, OVF included. Which element of a source goes with
which of the other and of the destination is the model's choice (log 45); what is done to the elements is an argument (log
33). A pair operand that names an odd register is refused (R13, log 25). -/
def Obligations.VectorResultsAndStickySaturation : Prop :=
  ∀ (element : Word → Word → Word × Bool) (halves : BitVec 16 → BitVec 16 → BitVec 16) (align : DWord → DWord → DWord)
    (d rs rt : Reg) (s : State),
    (∃ t, contractVaddh halves d rs rt s = .next t ∧
      (t.getR d).extractLsb' 0 16 = halves ((s.getR rs).extractLsb' 0 16) ((s.getR rt).extractLsb' 0 16) ∧
      (t.getR d).extractLsb' 16 16 = halves ((s.getR rs).extractLsb' 16 16) ((s.getR rt).extractLsb' 16 16) ∧
      Transfers s t [d] []) ∧
    (evenReg d = true → evenReg rs = true → evenReg rt = true →
      (∃ t, contractVaddwSat element d rs rt s = .next t ∧
        t.getR d = (element (s.getR rs) (s.getR rt)).1 ∧
        t.getR (oddOf d) = (element (s.getR (oddOf rs)) (s.getR (oddOf rt))).1 ∧
        t.usr.getLsbD 0 = (s.usr.getLsbD 0 || (element (s.getR rs) (s.getR rt)).2 ||
          (element (s.getR (oddOf rs)) (s.getR (oddOf rt))).2) ∧
        t.usr.extractLsb' 1 31 = s.usr.extractLsb' 1 31 ∧ Transfers s t [d, oddOf d] [.usr]) ∧
      (∃ t, contractValignb align d rt rs s = .next t ∧
        t.getR (oddOf d) ++ t.getR d = align (s.getR (oddOf rt) ++ s.getR rt) (s.getR (oddOf rs) ++ s.getR rs) ∧
        Transfers s t [d, oddOf d] [])) ∧
    (evenReg d = false ∨ evenReg rs = false ∨ evenReg rt = false →
      contractVaddwSat element d rs rt s = .refused .oddPair ∧ contractValignb align d rt rs s = .refused .oddPair)

/-- A floating-point instruction under FPCOPROC = 11 and alone in its packet, on general registers and pairs (log 36): if it meets
a condition whose enable is set both in the old and in the new enables, it raises; if no met condition's enable is set in
either, the result for the rounding mode and the source values goes to the register or the pair, the flags of the met
conditions are set and none is cleared (D19, log 34). -/
def Obligations.FloatingPointRaisesOrSetsFlags : Prop :=
  ∀ (conditions : RoundingMode → List DWord → BitVec 5) (result : RoundingMode → List DWord → DWord)
    (sources : List GeneralOperand) (d : GeneralOperand) (s : State) (met : BitVec 5) (v : DWord),
    usrIeee s.usr = true → d.named = true → (∀ x ∈ sources, x.named = true) →
    met = conditions (roundingMode (s.usr.extractLsb' 22 2)) (sources.map s.getOperand) →
    v = result (roundingMode (s.usr.extractLsb' 22 2)) (sources.map s.getOperand) →
    ((∃ k, k < 5 ∧ met.getLsbD k = true ∧ s.trapEnables.getLsbD k = true ∧ s.usr.getLsbD (25 + k) = true) →
      ∃ e, contractFloat [] conditions result sources d s = .fault (.floatingPoint e)) ∧
    ((∀ k, k < 5 → met.getLsbD k = true → s.trapEnables.getLsbD k = false ∧ s.usr.getLsbD (25 + k) = false) →
      ∃ t, contractFloat [] conditions result sources d s = .next t ∧
        (match d with
          | .single r => t.getR r = v.extractLsb' 0 32
          | .pair r => t.getR r = v.extractLsb' 0 32 ∧ t.getR (oddOf r) = v.extractLsb' 32 32) ∧
        (∀ k, k < 5 → t.usr.getLsbD (1 + k) = (s.usr.getLsbD (1 + k) || met.getLsbD k)) ∧
        t.usr.extractLsb' 6 26 = s.usr.extractLsb' 6 26 ∧ t.usr.getLsbD 0 = s.usr.getLsbD 0 ∧ Transfers s t d.regs [.usr])

/-- A floating-point instruction that shares its packet with a transfer to USR, alone or in C9:8, is refused (D18(c)). Beside any
other instructions, it is refused while FPCOPROC is not 11 (U7, log 36), and, where FPCOPROC is 11, if its destination or one of
its sources is an odd-numbered pair (log 36). -/
def Obligations.FloatingPointNeedsItsConditions : Prop :=
  ∀ (mates : List Instr) (conditions : RoundingMode → List DWord → BitVec 5) (result : RoundingMode → List DWord → DWord)
    (sources : List GeneralOperand) (d : GeneralOperand) (q : Reg) (s : State),
    (∀ i ∈ mates, Dest.control .usr ∈ destsOf i →
      contractFloat mates conditions result sources d s = .refused .usrGroupedWithFloat) ∧
    ((∀ i ∈ mates, Dest.control .usr ∉ destsOf i) →
      (s.usr.extractLsb' 20 2 ≠ 3#2 → contractFloat mates conditions result sources d s = .refused .fpcoprocNotIeee) ∧
      (s.usr.extractLsb' 20 2 = 3#2 → evenReg q = false → d = .pair q ∨ .pair q ∈ sources →
        contractFloat mates conditions result sources d s = .refused .oddPair))

/-- `Rd = add(Rs, Rt)` and `Rd = add(Rs, #imm)` with any immediate (log 46): the sum modulo 2^32 (D12), the same register allowed as source and destination,
and nothing else changes, USR.OVF included. -/
def Obligations.AddWrapsAndSetsNoFlag : Prop :=
  ∀ (d rs rt : Reg) (imm : Word) (s : State),
    (∃ t, contractAdd d rs rt s = .next t ∧ (t.getR d).toNat = ((s.getR rs).toNat + (s.getR rt).toNat) % 4294967296 ∧
      Transfers s t [d] []) ∧
    (∃ t, contractAddImm d rs imm s = .next t ∧ (t.getR d).toNat = ((s.getR rs).toNat + imm.toNat) % 4294967296 ∧
      Transfers s t [d] [])

/-- `P = cmp.eq(Rs, Rt)` and, in the next packet, whose own successor the fetch took from the text, `if (P) jump`: both complete.
P receives the pattern for equality or the other one; with patterns that the test tells apart, the jump is taken exactly if
the registers were equal, and otherwise the packet after the jump follows; nothing else changes (the patterns and the test
are arguments, log 33). -/
def Obligations.CompareThenJumpFollowsEquality : Prop :=
  ∀ (yes no : Byte) (holds : Byte → Bool) (p : PReg) (rs rt : Reg) (target n : Word) (s : State),
    holds yes = true → holds no = false →
    ∃ t u, contractCmpEq yes no p rs rt s = .next t ∧ contractJumpIf holds p target { t with nextPc := n } = .next u ∧
      t.getP p = (if s.getR rs = s.getR rt then yes else no) ∧ (∀ q, q ≠ p → t.getP q = s.getP q) ∧ Transfers s t [] [.p30] ∧
      u.pc = (if s.getR rs = s.getR rt then target else n) ∧ Frame { t with nextPc := n } u [] [] ∧ Counted t u ∧
      u.prefetchOpen = t.prefetchOpen

/-- `l2fetch` completes: a prefetch may be in progress from then on, and no register and no byte of memory changes. -/
def Obligations.PrefetchTouchesNoRegister : Prop :=
  ∀ s : State, ∃ t, contractL2fetch s = .next t ∧ t.prefetchOpen = true ∧ Frame s t [] [] ∧ Counted s t ∧ t.pc = s.nextPc

/-- `isync`: the trap enables in effect become USR[29:25] (R167, R206), and they are what governs from then on (D19, log 34); no
general and no control register changes, USR.PFA included (R167, log 16). R167 leaves every other effect unstated, and the rest
is the model's: the PC goes to the next packet and PKTCOUNT counts as in every packet (R168, log 37); memory is as it was (log
33); and so is what system software and the platform own (D10, D13, D15, D16, D25, log 11, 12). -/
def Obligations.IsyncPutsEnablesInEffect : Prop :=
  ∀ s : State, ∃ t, contractIsync s = .next t ∧ t.trapEnables = s.usr.extractLsb' 25 5 ∧ t.governingEnables = t.trapEnables ∧
    (∀ r, t.getR r = s.getR r) ∧ (∀ c, stored t c = stored s c) ∧ t.prefetchOpen = s.prefetchOpen ∧ Owned s t ∧
    (∀ a, t.byteAt a = s.byteAt a) ∧ Counted s t ∧ t.pc = s.nextPc

/-- An indirect and a GP-relative load of each width, whose bytes can be read: the address is the base register, or GP plus the
offset as it stands, modulo 2^32 (D12, log 39, 46). A word goes to Rd, a doubleword to the pair, a byte or a halfword to the low
bits of Rd, below bits that the spec does not fix (the argument `fill`, log 33). No register but the destination changes: a base
that is not the destination keeps its value, and one that is, or is a half of the destination pair, is overwritten (the
model's choice, log 41). A doubleword load into an odd-numbered pair is refused (R13, log 25). -/
def Obligations.LoadsReachTheirAddress : Prop :=
  ∀ (d rs : Reg) (offset ea : Word) (m : AddrMode) (o : LoadOpen) (s : State),
    (m = .indirect rs ∧ ea = s.getR rs) ∨ (m = .gpRelative offset ∧ ea = s.gp + offset) →
      (∀ v : BitVec (8 * 1), s.memRead ea 1 = .next v →
        ∃ t, contractLoad .byte d m o s = .next t ∧ (t.getR d).extractLsb' 0 8 = v ∧
          (t.getR d).extractLsb' 8 24 = o.fill.extractLsb' 8 24 ∧ Transfers s t [d] []) ∧
      (∀ v : BitVec (8 * 2), s.memRead ea 2 = .next v →
        ∃ t, contractLoad .half d m o s = .next t ∧ (t.getR d).extractLsb' 0 16 = v ∧
          (t.getR d).extractLsb' 16 16 = o.fill.extractLsb' 16 16 ∧ Transfers s t [d] []) ∧
      (∀ v : BitVec (8 * 4), s.memRead ea 4 = .next v →
        ∃ t, contractLoad .word d m o s = .next t ∧ t.getR d = v ∧ Transfers s t [d] []) ∧
      (evenReg d = true → ∀ v : BitVec (8 * 8), s.memRead ea 8 = .next v →
        ∃ t, contractLoad .double d m o s = .next t ∧ t.getR (oddOf d) ++ t.getR d = v ∧ Transfers s t [d, oddOf d] []) ∧
      (evenReg d = false → contractLoad .double d m o s = .refused .oddPair)

/-- An auto-increment and a bit-reversed word load change the pointer by the whole of Mu, unscaled (log 46), modulo 2^32 (D12), and
the destination; an auto-increment access is at Rx and a bit-reversed one at what bit reversal makes of Rx, before or after
the change (log 33); a load of any width whose destination, or a half of whose destination pair, is its pointer is refused
(U21, log 41). -/
def Obligations.AutoIncrementAddsModifier : Prop :=
  ∀ (d rx : Reg) (u : Fin 2) (o : LoadOpen) (s : State) (v : BitVec (8 * 4)) (m : AddrMode) (p : Word),
    p = (if o.incrementFirst then s.getR rx + (if u = 0 then s.m0 else s.m1) else s.getR rx) →
    loadAddress (.autoIncrement rx u) o s = p ∧ loadAddress (.bitReversed rx u) o s = o.bitReverse p ∧
    (m = .autoIncrement rx u ∨ m = .bitReversed rx u →
      (d ≠ rx → s.memRead (loadAddress m o s) 4 = .next v →
        ∃ t, contractLoad .word d m o s = .next t ∧ t.getR d = v ∧
          t.getR rx = s.getR rx + (if u = 0 then s.m0 else s.m1) ∧ Transfers s t [d, rx] []) ∧
      ∀ w : Width, d = rx ∨ (w = .double ∧ oddOf d = rx) → contractLoad w d m o s = .refused .doubleWrite)

/-- A circular load whose destination, or a half of whose destination pair, is its pointer is refused, at any width (U21, log 41;
the source's own example R2 = memw(R2++#8:circ(M0)) among them). A circular word load whose destination is another register
is refused if bits 27:24 of its modifier register are not 0 (D22). Any other reads at Rx as it was or at its new value, and if
that word can be read it completes: the pointer becomes Rx plus the increment, which is the immediate, unscaled (log 35), or
follows from the I value of Mu, wherever that sum lies inside the buffer of Mu[16:0] bytes that begins at CSu, and it stays
inside the buffer in any case, if the buffer is not empty (D12, D23; log 35). -/
def Obligations.CircularLoadStaysInItsBuffer : Prop :=
  ∀ (d rx : Reg) (imm step modifier start : Word) (u : Fin 2) (o : LoadOpen) (s : State) (v : BitVec (8 * 4)) (m : AddrMode),
    modifier = (if u = 0 then s.m0 else s.m1) → start = (if u = 0 then s.cs0 else s.cs1) →
    (m = .circularImm rx imm u ∧ step = imm) ∨
      (m = .circularReg rx u ∧ step = o.iStep (modifier.extractLsb' 28 4 ++ modifier.extractLsb' 17 7)) →
      (∀ w : Width, d = rx ∨ (w = .double ∧ oddOf d = rx) → contractLoad w d m o s = .refused .doubleWrite) ∧
      (d ≠ rx → modifier.extractLsb' 24 4 ≠ 0#4 → contractLoad .word d m o s = .refused .circularReservedBits) ∧
      (d ≠ rx → modifier.extractLsb' 24 4 = 0#4 → s.memRead (loadAddress m o s) 4 = .next v →
        ∃ t, contractLoad .word d m o s = .next t ∧ t.getR d = v ∧ Transfers s t [d, rx] [] ∧
          loadAddress m o s = (if o.incrementFirst then t.getR rx else s.getR rx) ∧
          ((s.getR rx + step - start).toNat < (modifier.extractLsb' 0 17).toNat → t.getR rx = s.getR rx + step) ∧
          (modifier.extractLsb' 0 17 ≠ 0#17 →
            (t.getR rx - start).toNat < (modifier.extractLsb' 0 17).toNat))
end

