-- ==== Sys2Proof/Laws/Memory.lean ====
section
/-! SUPPORT. Sequencing of answers, and the laws of memory: reading after writing, and the canonical form. -/

namespace Sys2Proof.Machine

/-! ### Sequencing -/

@[simp] theorem andThen_next {α β : Type} (a : α) (f : α → Res β) : andThen (.next a) f = f a := rfl
@[simp] theorem andThen_fault {α β : Type} (r : Fault) (f : α → Res β) : andThen (.fault r) f = .fault r := rfl
@[simp] theorem andThen_refused {α β : Type} (r : Refusal) (f : α → Res β) : andThen (.refused r) f = .refused r := rfl

/-- All that `andThen` can do when it answers a value. -/
theorem andThen_eq_next {α β : Type} {x : Res α} {f : α → Res β} {b : β} :
    andThen x f = .next b ↔ ∃ a, x = .next a ∧ f a = .next b := by
  cases x <;> simp [andThen]

/-- All that `andThen` can do when it faults. -/
theorem andThen_eq_fault {α β : Type} {x : Res α} {f : α → Res β} {r : Fault} :
    andThen x f = .fault r ↔ x = .fault r ∨ ∃ a, x = .next a ∧ f a = .fault r := by
  cases x <;> simp [andThen]

/-! ### Reading and writing one byte -/

@[simp] theorem Mem.find_put_self (a : Nat) (v : Byte) (m : Mem) : Mem.find a (Mem.put a v m) = some v := by
  induction m with
  | nil => simp [Mem.put, Mem.find]
  | cons c rest ih =>
    obtain ⟨b, w⟩ := c
    unfold Mem.put
    split
    · simp [Mem.find]
    · split
      · simp [Mem.find]
      · rename_i h
        simp [Mem.find, h, ih]

@[simp] theorem Mem.find_put_of_ne {a b : Nat} (h : b ≠ a) (v : Byte) (m : Mem) :
    Mem.find b (Mem.put a v m) = Mem.find b m := by
  induction m with
  | nil => simp [Mem.put, Mem.find, h]
  | cons c rest ih =>
    obtain ⟨k, w⟩ := c
    unfold Mem.put
    split
    · simp [Mem.find, h]
    · split
      · rename_i hk
        subst hk
        simp [Mem.find, h]
      · simp [Mem.find, ih]

/-! ### The canonical form -/

theorem Mem.risingFrom_mono {lo hi : Nat} (h : lo ≤ hi) {m : Mem} (hm : Mem.risingFrom hi m = true) :
    Mem.risingFrom lo m = true := by
  cases m with
  | nil => rfl
  | cons c rest =>
    simp only [Mem.risingFrom, Bool.and_eq_true, decide_eq_true_eq] at hm ⊢
    exact ⟨le_trans h hm.1, hm.2⟩

theorem Mem.risingFrom_put {lo a : Nat} (h : lo ≤ a) (v : Byte) {m : Mem} (hm : Mem.risingFrom lo m = true) :
    Mem.risingFrom lo (Mem.put a v m) = true := by
  induction m generalizing lo with
  | nil => simp [Mem.put, Mem.risingFrom, h]
  | cons c rest ih =>
    obtain ⟨b, w⟩ := c
    simp only [Mem.risingFrom, Bool.and_eq_true, decide_eq_true_eq] at hm
    unfold Mem.put
    split
    · rename_i hab
      simp [Mem.risingFrom, h, hm.2, Nat.succ_le_of_lt hab]
    · split
      · rename_i hab
        subst hab
        simp [Mem.risingFrom, h, hm.2]
      · rename_i h1 h2
        have : b + 1 ≤ a := by omega
        simp [Mem.risingFrom, hm.1, ih this hm.2]

theorem Mem.inSpace_put {a : Nat} (h : a < 4294967296) (v : Byte) {m : Mem} (hm : Mem.inSpace m = true) :
    Mem.inSpace (Mem.put a v m) = true := by
  induction m with
  | nil => simp [Mem.put, Mem.inSpace, h]
  | cons c rest ih =>
    obtain ⟨b, w⟩ := c
    simp only [Mem.inSpace, Bool.and_eq_true, decide_eq_true_eq] at hm
    unfold Mem.put
    split
    · simp [Mem.inSpace, h, hm]
    · split
      · simp [Mem.inSpace, h, hm.2]
      · simp [Mem.inSpace, hm.1, ih hm.2]

/-- Writing a byte of the address space keeps memory canonical. -/
theorem Mem.put_wf {a : Nat} (h : a < 4294967296) (v : Byte) {m : Mem} (hm : Mem.wf m = true) :
    Mem.wf (Mem.put a v m) = true := by
  simp only [Mem.wf, Bool.and_eq_true] at hm ⊢
  exact ⟨Mem.risingFrom_put (Nat.zero_le a) v hm.1, Mem.inSpace_put h v hm.2⟩

theorem byteKey_lt (addr : Word) (i : Nat) : byteKey addr i < 4294967296 := (addr + BitVec.ofNat 32 i).isLt

/-- Storing the bytes of a value keeps memory canonical. -/
theorem Mem.scatter_wf (addr : Word) (v n : Nat) {m : Mem} (hm : Mem.wf m = true) :
    Mem.wf (Mem.scatter addr v n m) = true := by
  induction n with
  | zero => exact hm
  | succ n ih => exact Mem.put_wf (byteKey_lt addr n) _ ih

/-- A store leaves every byte outside it as it was. -/
theorem Mem.find_scatter_outside {a : Nat} (addr : Word) (v n : Nat) (m : Mem) (h : ∀ i, i < n → a ≠ byteKey addr i) :
    Mem.find a (Mem.scatter addr v n m) = Mem.find a m := by
  induction n with
  | zero => rfl
  | succ n ih =>
    have hn : a ≠ byteKey addr n := h n (by omega)
    have hrest := ih fun i hi => h i (by omega)
    simpa [Mem.scatter, hn] using hrest

/-! ### The access checks and the two memory primitives -/

/-- All that `checkAccess` can do when it lets the access happen. -/
theorem State.checkAccess_eq_next {s : State} {addr : Word} {n : Nat} {u : Unit} :
    s.checkAccess addr n = .next u ↔ aligned addr n = true ∧ s.ram addr n = true := by
  unfold State.checkAccess
  split <;> rename_i h
  · split <;> rename_i h' <;> simp [h, h']
  · simp [h]

/-- All that `memWrite` can do when it answers a state. -/
theorem State.memWrite_eq_next {s t : State} {addr : Word} {n : Nat} {v : BitVec (8 * n)} :
    s.memWrite addr n v = .next t ↔
      aligned addr n = true ∧ s.ram addr n = true ∧ t = { s with mem := Mem.scatter addr v.toNat n s.mem } := by
  simp only [State.memWrite, andThen_eq_next, State.checkAccess_eq_next]
  constructor
  · rintro ⟨_, ⟨h1, h2⟩, h⟩
    cases h
    exact ⟨h1, h2, rfl⟩
  · rintro ⟨h1, h2, rfl⟩
    exact ⟨(), ⟨h1, h2⟩, rfl⟩

/-- All that `memRead` can do when it answers a value. -/
theorem State.memRead_eq_next {s : State} {addr : Word} {n : Nat} {v : BitVec (8 * n)} :
    s.memRead addr n = .next v ↔ aligned addr n = true ∧ s.ram addr n = true ∧ s.gather addr n = .next v := by
  simp only [State.memRead, andThen_eq_next, State.checkAccess_eq_next]
  exact ⟨fun ⟨_, ⟨h1, h2⟩, h⟩ => ⟨h1, h2, h⟩, fun ⟨h1, h2, h⟩ => ⟨(), ⟨h1, h2⟩, h⟩⟩

/-! ### The program text -/

/-- A packet that was placed is the one found at its address. -/
@[simp] theorem findPacket_placePacket (q : TextPacket) (l : List TextPacket) : findPacket q.addr (placePacket q l) = some q := by
  induction l with
  | nil => simp [placePacket, findPacket]
  | cons p rest ih =>
    unfold placePacket
    split
    · simp [findPacket]
    · split
      · simp [findPacket]
      · rename_i h
        simp [findPacket, Ne.symm h, ih]

/-- All that the fetch can do when it answers a packet. -/
theorem State.fetch_eq_next {s : State} {p : TextPacket} :
    s.fetch = .next p ↔ s.legalPc s.pc = true ∧ findPacket s.pc s.text = some p ∧ textFits s.text = true := by
  unfold State.fetch
  cases s.legalPc s.pc
  · simp
  · cases hf : findPacket s.pc s.text with
    | none => simp
    | some q => cases ht : textFits s.text <;> simp

end Sys2Proof.Machine
end

