-- ==== Sys2Proof/Laws/State.lean ====
section
/-! SUPPORT. One lemma per field and per update of the state, so that no proof unfolds a record update. -/

namespace Sys2Proof.Machine

/-! ### A general register written -/

@[simp] theorem State.setR_regs (s : State) (r : Reg) (v : Word) : (s.setR r v).regs = s.regs.set r v := rfl
@[simp] theorem State.setR_pc (s : State) (r : Reg) (v : Word) : (s.setR r v).pc = s.pc := rfl
@[simp] theorem State.setR_nextPc (s : State) (r : Reg) (v : Word) : (s.setR r v).nextPc = s.nextPc := rfl
@[simp] theorem State.setR_sa0 (s : State) (r : Reg) (v : Word) : (s.setR r v).sa0 = s.sa0 := rfl
@[simp] theorem State.setR_lc0 (s : State) (r : Reg) (v : Word) : (s.setR r v).lc0 = s.lc0 := rfl
@[simp] theorem State.setR_sa1 (s : State) (r : Reg) (v : Word) : (s.setR r v).sa1 = s.sa1 := rfl
@[simp] theorem State.setR_lc1 (s : State) (r : Reg) (v : Word) : (s.setR r v).lc1 = s.lc1 := rfl
@[simp] theorem State.setR_preds (s : State) (r : Reg) (v : Word) : (s.setR r v).preds = s.preds := rfl
@[simp] theorem State.setR_m0 (s : State) (r : Reg) (v : Word) : (s.setR r v).m0 = s.m0 := rfl
@[simp] theorem State.setR_m1 (s : State) (r : Reg) (v : Word) : (s.setR r v).m1 = s.m1 := rfl
@[simp] theorem State.setR_usr (s : State) (r : Reg) (v : Word) : (s.setR r v).usr = s.usr := rfl
@[simp] theorem State.setR_ugp (s : State) (r : Reg) (v : Word) : (s.setR r v).ugp = s.ugp := rfl
@[simp] theorem State.setR_gp (s : State) (r : Reg) (v : Word) : (s.setR r v).gp = s.gp := rfl
@[simp] theorem State.setR_cs0 (s : State) (r : Reg) (v : Word) : (s.setR r v).cs0 = s.cs0 := rfl
@[simp] theorem State.setR_cs1 (s : State) (r : Reg) (v : Word) : (s.setR r v).cs1 = s.cs1 := rfl
@[simp] theorem State.setR_upcycle (s : State) (r : Reg) (v : Word) : (s.setR r v).upcycle = s.upcycle := rfl
@[simp] theorem State.setR_frameLimit (s : State) (r : Reg) (v : Word) : (s.setR r v).frameLimit = s.frameLimit := rfl
@[simp] theorem State.setR_frameKey (s : State) (r : Reg) (v : Word) : (s.setR r v).frameKey = s.frameKey := rfl
@[simp] theorem State.setR_pktcount (s : State) (r : Reg) (v : Word) : (s.setR r v).pktcount = s.pktcount := rfl
@[simp] theorem State.setR_utimer (s : State) (r : Reg) (v : Word) : (s.setR r v).utimer = s.utimer := rfl
@[simp] theorem State.setR_upmucnt (s : State) (r : Reg) (v : Word) : (s.setR r v).upmucnt = s.upmucnt := rfl
@[simp] theorem State.setR_prefetchOpen (s : State) (r : Reg) (v : Word) : (s.setR r v).prefetchOpen = s.prefetchOpen := rfl
@[simp] theorem State.setR_trapEnables (s : State) (r : Reg) (v : Word) : (s.setR r v).trapEnables = s.trapEnables := rfl
@[simp] theorem State.setR_upcycleAccess (s : State) (r : Reg) (v : Word) : (s.setR r v).upcycleAccess = s.upcycleAccess := rfl
@[simp] theorem State.setR_pktcountAccess (s : State) (r : Reg) (v : Word) : (s.setR r v).pktcountAccess = s.pktcountAccess := rfl
@[simp] theorem State.setR_utimerAccess (s : State) (r : Reg) (v : Word) : (s.setR r v).utimerAccess = s.utimerAccess := rfl
@[simp] theorem State.setR_upmucntAccess (s : State) (r : Reg) (v : Word) : (s.setR r v).upmucntAccess = s.upmucntAccess := rfl
@[simp] theorem State.setR_mode (s : State) (r : Reg) (v : Word) : (s.setR r v).mode = s.mode := rfl
@[simp] theorem State.setR_mem (s : State) (r : Reg) (v : Word) : (s.setR r v).mem = s.mem := rfl
@[simp] theorem State.setR_addressMap (s : State) (r : Reg) (v : Word) : (s.setR r v).addressMap = s.addressMap := rfl
@[simp] theorem State.setR_pcAlignment (s : State) (r : Reg) (v : Word) : (s.setR r v).pcAlignment = s.pcAlignment := rfl
@[simp] theorem State.setR_text (s : State) (r : Reg) (v : Word) : (s.setR r v).text = s.text := rfl
@[simp] theorem State.setR_envTick (s : State) (r : Reg) (v : Word) : (s.setR r v).envTick = s.envTick := rfl

/-! ### A general pair written -/

@[simp] theorem State.setRR_pc (s : State) (r : Reg) (v : DWord) : (s.setRR r v).pc = s.pc := rfl
@[simp] theorem State.setRR_nextPc (s : State) (r : Reg) (v : DWord) : (s.setRR r v).nextPc = s.nextPc := rfl
@[simp] theorem State.setRR_sa0 (s : State) (r : Reg) (v : DWord) : (s.setRR r v).sa0 = s.sa0 := rfl
@[simp] theorem State.setRR_lc0 (s : State) (r : Reg) (v : DWord) : (s.setRR r v).lc0 = s.lc0 := rfl
@[simp] theorem State.setRR_sa1 (s : State) (r : Reg) (v : DWord) : (s.setRR r v).sa1 = s.sa1 := rfl
@[simp] theorem State.setRR_lc1 (s : State) (r : Reg) (v : DWord) : (s.setRR r v).lc1 = s.lc1 := rfl
@[simp] theorem State.setRR_preds (s : State) (r : Reg) (v : DWord) : (s.setRR r v).preds = s.preds := rfl
@[simp] theorem State.setRR_m0 (s : State) (r : Reg) (v : DWord) : (s.setRR r v).m0 = s.m0 := rfl
@[simp] theorem State.setRR_m1 (s : State) (r : Reg) (v : DWord) : (s.setRR r v).m1 = s.m1 := rfl
@[simp] theorem State.setRR_usr (s : State) (r : Reg) (v : DWord) : (s.setRR r v).usr = s.usr := rfl
@[simp] theorem State.setRR_ugp (s : State) (r : Reg) (v : DWord) : (s.setRR r v).ugp = s.ugp := rfl
@[simp] theorem State.setRR_gp (s : State) (r : Reg) (v : DWord) : (s.setRR r v).gp = s.gp := rfl
@[simp] theorem State.setRR_cs0 (s : State) (r : Reg) (v : DWord) : (s.setRR r v).cs0 = s.cs0 := rfl
@[simp] theorem State.setRR_cs1 (s : State) (r : Reg) (v : DWord) : (s.setRR r v).cs1 = s.cs1 := rfl
@[simp] theorem State.setRR_upcycle (s : State) (r : Reg) (v : DWord) : (s.setRR r v).upcycle = s.upcycle := rfl
@[simp] theorem State.setRR_frameLimit (s : State) (r : Reg) (v : DWord) : (s.setRR r v).frameLimit = s.frameLimit := rfl
@[simp] theorem State.setRR_frameKey (s : State) (r : Reg) (v : DWord) : (s.setRR r v).frameKey = s.frameKey := rfl
@[simp] theorem State.setRR_pktcount (s : State) (r : Reg) (v : DWord) : (s.setRR r v).pktcount = s.pktcount := rfl
@[simp] theorem State.setRR_utimer (s : State) (r : Reg) (v : DWord) : (s.setRR r v).utimer = s.utimer := rfl
@[simp] theorem State.setRR_upmucnt (s : State) (r : Reg) (v : DWord) : (s.setRR r v).upmucnt = s.upmucnt := rfl
@[simp] theorem State.setRR_prefetchOpen (s : State) (r : Reg) (v : DWord) : (s.setRR r v).prefetchOpen = s.prefetchOpen := rfl
@[simp] theorem State.setRR_trapEnables (s : State) (r : Reg) (v : DWord) : (s.setRR r v).trapEnables = s.trapEnables := rfl
@[simp] theorem State.setRR_upcycleAccess (s : State) (r : Reg) (v : DWord) : (s.setRR r v).upcycleAccess = s.upcycleAccess := rfl
@[simp] theorem State.setRR_pktcountAccess (s : State) (r : Reg) (v : DWord) : (s.setRR r v).pktcountAccess = s.pktcountAccess := rfl
@[simp] theorem State.setRR_utimerAccess (s : State) (r : Reg) (v : DWord) : (s.setRR r v).utimerAccess = s.utimerAccess := rfl
@[simp] theorem State.setRR_upmucntAccess (s : State) (r : Reg) (v : DWord) : (s.setRR r v).upmucntAccess = s.upmucntAccess := rfl
@[simp] theorem State.setRR_mode (s : State) (r : Reg) (v : DWord) : (s.setRR r v).mode = s.mode := rfl
@[simp] theorem State.setRR_mem (s : State) (r : Reg) (v : DWord) : (s.setRR r v).mem = s.mem := rfl
@[simp] theorem State.setRR_addressMap (s : State) (r : Reg) (v : DWord) : (s.setRR r v).addressMap = s.addressMap := rfl
@[simp] theorem State.setRR_pcAlignment (s : State) (r : Reg) (v : DWord) : (s.setRR r v).pcAlignment = s.pcAlignment := rfl
@[simp] theorem State.setRR_text (s : State) (r : Reg) (v : DWord) : (s.setRR r v).text = s.text := rfl
@[simp] theorem State.setRR_envTick (s : State) (r : Reg) (v : DWord) : (s.setRR r v).envTick = s.envTick := rfl

/-! ### A predicate written -/

@[simp] theorem State.setP_regs (s : State) (p : PReg) (v : Byte) : (s.setP p v).regs = s.regs := rfl
@[simp] theorem State.setP_pc (s : State) (p : PReg) (v : Byte) : (s.setP p v).pc = s.pc := rfl
@[simp] theorem State.setP_nextPc (s : State) (p : PReg) (v : Byte) : (s.setP p v).nextPc = s.nextPc := rfl
@[simp] theorem State.setP_sa0 (s : State) (p : PReg) (v : Byte) : (s.setP p v).sa0 = s.sa0 := rfl
@[simp] theorem State.setP_lc0 (s : State) (p : PReg) (v : Byte) : (s.setP p v).lc0 = s.lc0 := rfl
@[simp] theorem State.setP_sa1 (s : State) (p : PReg) (v : Byte) : (s.setP p v).sa1 = s.sa1 := rfl
@[simp] theorem State.setP_lc1 (s : State) (p : PReg) (v : Byte) : (s.setP p v).lc1 = s.lc1 := rfl
@[simp] theorem State.setP_preds (s : State) (p : PReg) (v : Byte) : (s.setP p v).preds = s.preds.set p v := rfl
@[simp] theorem State.setP_m0 (s : State) (p : PReg) (v : Byte) : (s.setP p v).m0 = s.m0 := rfl
@[simp] theorem State.setP_m1 (s : State) (p : PReg) (v : Byte) : (s.setP p v).m1 = s.m1 := rfl
@[simp] theorem State.setP_usr (s : State) (p : PReg) (v : Byte) : (s.setP p v).usr = s.usr := rfl
@[simp] theorem State.setP_ugp (s : State) (p : PReg) (v : Byte) : (s.setP p v).ugp = s.ugp := rfl
@[simp] theorem State.setP_gp (s : State) (p : PReg) (v : Byte) : (s.setP p v).gp = s.gp := rfl
@[simp] theorem State.setP_cs0 (s : State) (p : PReg) (v : Byte) : (s.setP p v).cs0 = s.cs0 := rfl
@[simp] theorem State.setP_cs1 (s : State) (p : PReg) (v : Byte) : (s.setP p v).cs1 = s.cs1 := rfl
@[simp] theorem State.setP_upcycle (s : State) (p : PReg) (v : Byte) : (s.setP p v).upcycle = s.upcycle := rfl
@[simp] theorem State.setP_frameLimit (s : State) (p : PReg) (v : Byte) : (s.setP p v).frameLimit = s.frameLimit := rfl
@[simp] theorem State.setP_frameKey (s : State) (p : PReg) (v : Byte) : (s.setP p v).frameKey = s.frameKey := rfl
@[simp] theorem State.setP_pktcount (s : State) (p : PReg) (v : Byte) : (s.setP p v).pktcount = s.pktcount := rfl
@[simp] theorem State.setP_utimer (s : State) (p : PReg) (v : Byte) : (s.setP p v).utimer = s.utimer := rfl
@[simp] theorem State.setP_upmucnt (s : State) (p : PReg) (v : Byte) : (s.setP p v).upmucnt = s.upmucnt := rfl
@[simp] theorem State.setP_prefetchOpen (s : State) (p : PReg) (v : Byte) : (s.setP p v).prefetchOpen = s.prefetchOpen := rfl
@[simp] theorem State.setP_trapEnables (s : State) (p : PReg) (v : Byte) : (s.setP p v).trapEnables = s.trapEnables := rfl
@[simp] theorem State.setP_upcycleAccess (s : State) (p : PReg) (v : Byte) : (s.setP p v).upcycleAccess = s.upcycleAccess := rfl
@[simp] theorem State.setP_pktcountAccess (s : State) (p : PReg) (v : Byte) : (s.setP p v).pktcountAccess = s.pktcountAccess := rfl
@[simp] theorem State.setP_utimerAccess (s : State) (p : PReg) (v : Byte) : (s.setP p v).utimerAccess = s.utimerAccess := rfl
@[simp] theorem State.setP_upmucntAccess (s : State) (p : PReg) (v : Byte) : (s.setP p v).upmucntAccess = s.upmucntAccess := rfl
@[simp] theorem State.setP_mode (s : State) (p : PReg) (v : Byte) : (s.setP p v).mode = s.mode := rfl
@[simp] theorem State.setP_mem (s : State) (p : PReg) (v : Byte) : (s.setP p v).mem = s.mem := rfl
@[simp] theorem State.setP_addressMap (s : State) (p : PReg) (v : Byte) : (s.setP p v).addressMap = s.addressMap := rfl
@[simp] theorem State.setP_pcAlignment (s : State) (p : PReg) (v : Byte) : (s.setP p v).pcAlignment = s.pcAlignment := rfl
@[simp] theorem State.setP_text (s : State) (p : PReg) (v : Byte) : (s.setP p v).text = s.text := rfl
@[simp] theorem State.setP_envTick (s : State) (p : PReg) (v : Byte) : (s.setP p v).envTick = s.envTick := rfl

/-! ### All four predicates written -/

@[simp] theorem State.setPreds_regs (s : State) (v : Word) : (s.setPreds v).regs = s.regs := rfl
@[simp] theorem State.setPreds_pc (s : State) (v : Word) : (s.setPreds v).pc = s.pc := rfl
@[simp] theorem State.setPreds_nextPc (s : State) (v : Word) : (s.setPreds v).nextPc = s.nextPc := rfl
@[simp] theorem State.setPreds_sa0 (s : State) (v : Word) : (s.setPreds v).sa0 = s.sa0 := rfl
@[simp] theorem State.setPreds_lc0 (s : State) (v : Word) : (s.setPreds v).lc0 = s.lc0 := rfl
@[simp] theorem State.setPreds_sa1 (s : State) (v : Word) : (s.setPreds v).sa1 = s.sa1 := rfl
@[simp] theorem State.setPreds_lc1 (s : State) (v : Word) : (s.setPreds v).lc1 = s.lc1 := rfl
@[simp] theorem State.setPreds_m0 (s : State) (v : Word) : (s.setPreds v).m0 = s.m0 := rfl
@[simp] theorem State.setPreds_m1 (s : State) (v : Word) : (s.setPreds v).m1 = s.m1 := rfl
@[simp] theorem State.setPreds_usr (s : State) (v : Word) : (s.setPreds v).usr = s.usr := rfl
@[simp] theorem State.setPreds_ugp (s : State) (v : Word) : (s.setPreds v).ugp = s.ugp := rfl
@[simp] theorem State.setPreds_gp (s : State) (v : Word) : (s.setPreds v).gp = s.gp := rfl
@[simp] theorem State.setPreds_cs0 (s : State) (v : Word) : (s.setPreds v).cs0 = s.cs0 := rfl
@[simp] theorem State.setPreds_cs1 (s : State) (v : Word) : (s.setPreds v).cs1 = s.cs1 := rfl
@[simp] theorem State.setPreds_upcycle (s : State) (v : Word) : (s.setPreds v).upcycle = s.upcycle := rfl
@[simp] theorem State.setPreds_frameLimit (s : State) (v : Word) : (s.setPreds v).frameLimit = s.frameLimit := rfl
@[simp] theorem State.setPreds_frameKey (s : State) (v : Word) : (s.setPreds v).frameKey = s.frameKey := rfl
@[simp] theorem State.setPreds_pktcount (s : State) (v : Word) : (s.setPreds v).pktcount = s.pktcount := rfl
@[simp] theorem State.setPreds_utimer (s : State) (v : Word) : (s.setPreds v).utimer = s.utimer := rfl
@[simp] theorem State.setPreds_upmucnt (s : State) (v : Word) : (s.setPreds v).upmucnt = s.upmucnt := rfl
@[simp] theorem State.setPreds_prefetchOpen (s : State) (v : Word) : (s.setPreds v).prefetchOpen = s.prefetchOpen := rfl
@[simp] theorem State.setPreds_trapEnables (s : State) (v : Word) : (s.setPreds v).trapEnables = s.trapEnables := rfl
@[simp] theorem State.setPreds_upcycleAccess (s : State) (v : Word) : (s.setPreds v).upcycleAccess = s.upcycleAccess := rfl
@[simp] theorem State.setPreds_pktcountAccess (s : State) (v : Word) : (s.setPreds v).pktcountAccess = s.pktcountAccess := rfl
@[simp] theorem State.setPreds_utimerAccess (s : State) (v : Word) : (s.setPreds v).utimerAccess = s.utimerAccess := rfl
@[simp] theorem State.setPreds_upmucntAccess (s : State) (v : Word) : (s.setPreds v).upmucntAccess = s.upmucntAccess := rfl
@[simp] theorem State.setPreds_mode (s : State) (v : Word) : (s.setPreds v).mode = s.mode := rfl
@[simp] theorem State.setPreds_mem (s : State) (v : Word) : (s.setPreds v).mem = s.mem := rfl
@[simp] theorem State.setPreds_addressMap (s : State) (v : Word) : (s.setPreds v).addressMap = s.addressMap := rfl
@[simp] theorem State.setPreds_pcAlignment (s : State) (v : Word) : (s.setPreds v).pcAlignment = s.pcAlignment := rfl
@[simp] theorem State.setPreds_text (s : State) (v : Word) : (s.setPreds v).text = s.text := rfl
@[simp] theorem State.setPreds_envTick (s : State) (v : Word) : (s.setPreds v).envTick = s.envTick := rfl

/-! ### A packet completed -/

@[simp] theorem State.retire_regs (s : State) (n : Nat) : (s.retire n).regs = s.regs := rfl
@[simp] theorem State.retire_pc (s : State) (n : Nat) : (s.retire n).pc = s.nextPc := rfl
@[simp] theorem State.retire_nextPc (s : State) (n : Nat) : (s.retire n).nextPc = s.nextPc := rfl
@[simp] theorem State.retire_sa0 (s : State) (n : Nat) : (s.retire n).sa0 = s.sa0 := rfl
@[simp] theorem State.retire_lc0 (s : State) (n : Nat) : (s.retire n).lc0 = s.lc0 := rfl
@[simp] theorem State.retire_sa1 (s : State) (n : Nat) : (s.retire n).sa1 = s.sa1 := rfl
@[simp] theorem State.retire_lc1 (s : State) (n : Nat) : (s.retire n).lc1 = s.lc1 := rfl
@[simp] theorem State.retire_preds (s : State) (n : Nat) : (s.retire n).preds = s.preds := rfl
@[simp] theorem State.retire_m0 (s : State) (n : Nat) : (s.retire n).m0 = s.m0 := rfl
@[simp] theorem State.retire_m1 (s : State) (n : Nat) : (s.retire n).m1 = s.m1 := rfl
@[simp] theorem State.retire_usr (s : State) (n : Nat) : (s.retire n).usr = s.usr := rfl
@[simp] theorem State.retire_ugp (s : State) (n : Nat) : (s.retire n).ugp = s.ugp := rfl
@[simp] theorem State.retire_gp (s : State) (n : Nat) : (s.retire n).gp = s.gp := rfl
@[simp] theorem State.retire_cs0 (s : State) (n : Nat) : (s.retire n).cs0 = s.cs0 := rfl
@[simp] theorem State.retire_cs1 (s : State) (n : Nat) : (s.retire n).cs1 = s.cs1 := rfl
@[simp] theorem State.retire_upcycle (s : State) (n : Nat) : (s.retire n).upcycle = s.upcycleAt (n - 1) := rfl
@[simp] theorem State.retire_frameLimit (s : State) (n : Nat) : (s.retire n).frameLimit = s.frameLimit := rfl
@[simp] theorem State.retire_frameKey (s : State) (n : Nat) : (s.retire n).frameKey = s.frameKey := rfl
@[simp] theorem State.retire_pktcount (s : State) (n : Nat) : (s.retire n).pktcount = s.pktcount + (if s.counting then 1 else 0) := rfl
@[simp] theorem State.retire_utimer (s : State) (n : Nat) : (s.retire n).utimer = s.utimerAt (n - 1) := rfl
@[simp] theorem State.retire_upmucnt (s : State) (n : Nat) : (s.retire n).upmucnt = Vector.ofFn fun i => s.upmucntAt i (n - 1) := rfl
@[simp] theorem State.retire_prefetchOpen (s : State) (n : Nat) : (s.retire n).prefetchOpen = s.prefetchOpen := rfl
@[simp] theorem State.retire_trapEnables (s : State) (n : Nat) : (s.retire n).trapEnables = s.trapEnables := rfl
@[simp] theorem State.retire_upcycleAccess (s : State) (n : Nat) : (s.retire n).upcycleAccess = s.upcycleAccess := rfl
@[simp] theorem State.retire_pktcountAccess (s : State) (n : Nat) : (s.retire n).pktcountAccess = s.pktcountAccess := rfl
@[simp] theorem State.retire_utimerAccess (s : State) (n : Nat) : (s.retire n).utimerAccess = s.utimerAccess := rfl
@[simp] theorem State.retire_upmucntAccess (s : State) (n : Nat) : (s.retire n).upmucntAccess = s.upmucntAccess := rfl
@[simp] theorem State.retire_mode (s : State) (n : Nat) : (s.retire n).mode = s.mode := rfl
@[simp] theorem State.retire_mem (s : State) (n : Nat) : (s.retire n).mem = s.mem := rfl
@[simp] theorem State.retire_addressMap (s : State) (n : Nat) : (s.retire n).addressMap = s.addressMap := rfl
@[simp] theorem State.retire_pcAlignment (s : State) (n : Nat) : (s.retire n).pcAlignment = s.pcAlignment := rfl
@[simp] theorem State.retire_text (s : State) (n : Nat) : (s.retire n).text = s.text := rfl
@[simp] theorem State.retire_envTick (s : State) (n : Nat) : (s.retire n).envTick = s.envTick + n := rfl

/-! ### A control register read -/

@[simp] theorem State.noteRead_regs (s : State) (t : State) (k : Nat) (c : CReg) : (s.noteRead t k c).regs = s.regs := by
  unfold State.noteRead
  split <;> rfl
@[simp] theorem State.noteRead_pc (s : State) (t : State) (k : Nat) (c : CReg) : (s.noteRead t k c).pc = s.pc := by
  unfold State.noteRead
  split <;> rfl
@[simp] theorem State.noteRead_nextPc (s : State) (t : State) (k : Nat) (c : CReg) : (s.noteRead t k c).nextPc = s.nextPc := by
  unfold State.noteRead
  split <;> rfl
@[simp] theorem State.noteRead_sa0 (s : State) (t : State) (k : Nat) (c : CReg) : (s.noteRead t k c).sa0 = s.sa0 := by
  unfold State.noteRead
  split <;> rfl
@[simp] theorem State.noteRead_lc0 (s : State) (t : State) (k : Nat) (c : CReg) : (s.noteRead t k c).lc0 = s.lc0 := by
  unfold State.noteRead
  split <;> rfl
@[simp] theorem State.noteRead_sa1 (s : State) (t : State) (k : Nat) (c : CReg) : (s.noteRead t k c).sa1 = s.sa1 := by
  unfold State.noteRead
  split <;> rfl
@[simp] theorem State.noteRead_lc1 (s : State) (t : State) (k : Nat) (c : CReg) : (s.noteRead t k c).lc1 = s.lc1 := by
  unfold State.noteRead
  split <;> rfl
@[simp] theorem State.noteRead_preds (s : State) (t : State) (k : Nat) (c : CReg) : (s.noteRead t k c).preds = s.preds := by
  unfold State.noteRead
  split <;> rfl
@[simp] theorem State.noteRead_m0 (s : State) (t : State) (k : Nat) (c : CReg) : (s.noteRead t k c).m0 = s.m0 := by
  unfold State.noteRead
  split <;> rfl
@[simp] theorem State.noteRead_m1 (s : State) (t : State) (k : Nat) (c : CReg) : (s.noteRead t k c).m1 = s.m1 := by
  unfold State.noteRead
  split <;> rfl
@[simp] theorem State.noteRead_usr (s : State) (t : State) (k : Nat) (c : CReg) : (s.noteRead t k c).usr = s.usr := by
  unfold State.noteRead
  split <;> rfl
@[simp] theorem State.noteRead_ugp (s : State) (t : State) (k : Nat) (c : CReg) : (s.noteRead t k c).ugp = s.ugp := by
  unfold State.noteRead
  split <;> rfl
@[simp] theorem State.noteRead_gp (s : State) (t : State) (k : Nat) (c : CReg) : (s.noteRead t k c).gp = s.gp := by
  unfold State.noteRead
  split <;> rfl
@[simp] theorem State.noteRead_cs0 (s : State) (t : State) (k : Nat) (c : CReg) : (s.noteRead t k c).cs0 = s.cs0 := by
  unfold State.noteRead
  split <;> rfl
@[simp] theorem State.noteRead_cs1 (s : State) (t : State) (k : Nat) (c : CReg) : (s.noteRead t k c).cs1 = s.cs1 := by
  unfold State.noteRead
  split <;> rfl
@[simp] theorem State.noteRead_upcycle (s : State) (t : State) (k : Nat) (c : CReg) : (s.noteRead t k c).upcycle = s.upcycle := by
  unfold State.noteRead
  split <;> rfl
@[simp] theorem State.noteRead_frameLimit (s : State) (t : State) (k : Nat) (c : CReg) : (s.noteRead t k c).frameLimit = s.frameLimit := by
  unfold State.noteRead
  split <;> rfl
@[simp] theorem State.noteRead_frameKey (s : State) (t : State) (k : Nat) (c : CReg) : (s.noteRead t k c).frameKey = s.frameKey := by
  unfold State.noteRead
  split <;> rfl
@[simp] theorem State.noteRead_pktcount (s : State) (t : State) (k : Nat) (c : CReg) : (s.noteRead t k c).pktcount = s.pktcount := by
  unfold State.noteRead
  split <;> rfl
@[simp] theorem State.noteRead_utimer (s : State) (t : State) (k : Nat) (c : CReg) : (s.noteRead t k c).utimer = s.utimer := by
  unfold State.noteRead
  split <;> rfl
@[simp] theorem State.noteRead_upmucnt (s : State) (t : State) (k : Nat) (c : CReg) : (s.noteRead t k c).upmucnt = s.upmucnt := by
  unfold State.noteRead
  split <;> rfl
@[simp] theorem State.noteRead_trapEnables (s : State) (t : State) (k : Nat) (c : CReg) : (s.noteRead t k c).trapEnables = s.trapEnables := by
  unfold State.noteRead
  split <;> rfl
@[simp] theorem State.noteRead_upcycleAccess (s : State) (t : State) (k : Nat) (c : CReg) : (s.noteRead t k c).upcycleAccess = s.upcycleAccess := by
  unfold State.noteRead
  split <;> rfl
@[simp] theorem State.noteRead_pktcountAccess (s : State) (t : State) (k : Nat) (c : CReg) : (s.noteRead t k c).pktcountAccess = s.pktcountAccess := by
  unfold State.noteRead
  split <;> rfl
@[simp] theorem State.noteRead_utimerAccess (s : State) (t : State) (k : Nat) (c : CReg) : (s.noteRead t k c).utimerAccess = s.utimerAccess := by
  unfold State.noteRead
  split <;> rfl
@[simp] theorem State.noteRead_upmucntAccess (s : State) (t : State) (k : Nat) (c : CReg) : (s.noteRead t k c).upmucntAccess = s.upmucntAccess := by
  unfold State.noteRead
  split <;> rfl
@[simp] theorem State.noteRead_mode (s : State) (t : State) (k : Nat) (c : CReg) : (s.noteRead t k c).mode = s.mode := by
  unfold State.noteRead
  split <;> rfl
@[simp] theorem State.noteRead_mem (s : State) (t : State) (k : Nat) (c : CReg) : (s.noteRead t k c).mem = s.mem := by
  unfold State.noteRead
  split <;> rfl
@[simp] theorem State.noteRead_addressMap (s : State) (t : State) (k : Nat) (c : CReg) : (s.noteRead t k c).addressMap = s.addressMap := by
  unfold State.noteRead
  split <;> rfl
@[simp] theorem State.noteRead_pcAlignment (s : State) (t : State) (k : Nat) (c : CReg) : (s.noteRead t k c).pcAlignment = s.pcAlignment := by
  unfold State.noteRead
  split <;> rfl
@[simp] theorem State.noteRead_text (s : State) (t : State) (k : Nat) (c : CReg) : (s.noteRead t k c).text = s.text := by
  unfold State.noteRead
  split <;> rfl
@[simp] theorem State.noteRead_envTick (s : State) (t : State) (k : Nat) (c : CReg) : (s.noteRead t k c).envTick = s.envTick := by
  unfold State.noteRead
  split <;> rfl

end Sys2Proof.Machine
end

