-- ==== Sys2Proof/Laws/Operands.lean ====
section
/-! SUPPORT. What reading and writing operands can do, said once. -/

namespace Sys2Proof.Machine

/-! ### The numbering of the control registers -/

@[simp] theorem CReg.ofNum_num (c : CReg) : CReg.ofNum c.num = c := by cases c <;> rfl

@[simp] theorem CReg.num_ofNum (n : Fin 32) : (CReg.ofNum n).num = n := by
  revert n
  decide

/-! ### The halves of a pair's value -/

@[simp] theorem extract_low_append (a b : Word) : (a ++ b).extractLsb' 0 32 = b := by
  apply BitVec.eq_of_getLsbD_eq
  intro i hi
  rw [BitVec.getLsbD_extractLsb', BitVec.getLsbD_append]
  simp [hi]

@[simp] theorem extract_high_append (a b : Word) : (a ++ b).extractLsb' 32 32 = a := by
  apply BitVec.eq_of_getLsbD_eq
  intro i hi
  rw [BitVec.getLsbD_extractLsb', BitVec.getLsbD_append]
  simp [hi]

@[simp] theorem append_extract_halves (v : DWord) : v.extractLsb' 32 32 ++ v.extractLsb' 0 32 = v := by
  apply BitVec.eq_of_getLsbD_eq
  intro i hi
  rw [BitVec.getLsbD_append, BitVec.getLsbD_extractLsb', BitVec.getLsbD_extractLsb']
  by_cases h : i < 32
  · simp [h]
  · have h2 : i - 32 < 32 := by omega
    have h3 : 32 + (i - 32) = i := by omega
    simp [h, h2, h3]

/-! ### General registers -/

theorem State.getR_setR (s : State) (r q : Reg) (v : Word) : (s.setR r v).getR q = if r = q then v else s.getR q := by
  simp only [State.getR, State.setR, Fin.getElem_fin, Vector.getElem_set, Fin.ext_iff]

@[simp] theorem State.getR_setR_self (s : State) (r : Reg) (v : Word) : (s.setR r v).getR r = v := by
  simp [State.getR_setR]

theorem State.getR_setR_of_ne (s : State) {r q : Reg} (h : r ≠ q) (v : Word) : (s.setR r v).getR q = s.getR q := by
  simp [State.getR_setR, h]

theorem oddOf_ne (r : Reg) : oddOf r ≠ r := by
  revert r
  decide

theorem oddOfC_ne (c : CReg) : oddOfC c ≠ c := by
  revert c
  intro c
  cases c <;> decide

theorem State.getR_setRR_low (s : State) (r : Reg) (v : DWord) : (s.setRR r v).getR r = v.extractLsb' 0 32 := by
  simp [State.setRR, State.getR_setR, oddOf_ne]

theorem State.getR_setRR_high (s : State) (r : Reg) (v : DWord) : (s.setRR r v).getR (oddOf r) = v.extractLsb' 32 32 := by
  simp [State.setRR]

theorem State.getR_setRR_of_ne (s : State) {r q : Reg} (h : q ≠ r) (h' : q ≠ oddOf r) (v : DWord) :
    (s.setRR r v).getR q = s.getR q := by
  simp [State.setRR, State.getR_setR, Ne.symm h, Ne.symm h']

@[simp] theorem State.getR_retire (s : State) (n : Nat) (r : Reg) : (s.retire n).getR r = s.getR r := rfl

@[simp] theorem State.getR_noteRead (s t : State) (k : Nat) (c : CReg) (r : Reg) : (s.noteRead t k c).getR r = s.getR r := by
  simp [State.getR]

@[simp] theorem State.getP_retire (s : State) (n : Nat) (p : PReg) : (s.retire n).getP p = s.getP p := rfl
@[simp] theorem State.getP_setR (s : State) (r : Reg) (v : Word) (p : PReg) : (s.setR r v).getP p = s.getP p := rfl

@[simp] theorem State.byteAt_retire (s : State) (n a : Nat) : (s.retire n).byteAt a = s.byteAt a := rfl
@[simp] theorem State.byteAt_setR (s : State) (r : Reg) (v : Word) (a : Nat) : (s.setR r v).byteAt a = s.byteAt a := rfl

theorem State.getP_setP (s : State) (p q : PReg) (v : Byte) : (s.setP p v).getP q = if p = q then v else s.getP q := by
  simp only [State.getP, State.setP, Fin.getElem_fin, Vector.getElem_set, Fin.ext_iff]

/-! ### Control registers -/

/-- A read of a control register never faults. -/
theorem State.readC_no_fault (s : State) (k : Nat) (c : CReg) (f : Fault) : s.readC k c ≠ .fault f := by
  cases c <;> simp [State.readC]

/-- A read answers a value exactly where the register is not reserved (R125). -/
theorem State.readC_answers (s : State) (k : Nat) (c : CReg) : (∃ v, s.readC k c = .next v) ↔ c.isReserved = false := by
  cases c <;> simp [State.readC, CReg.isReserved]

/-- A write of a control register never faults. -/
theorem State.writeC_no_fault (s : State) (c : CReg) (v : Word) (f : Fault) : s.writeC c v ≠ .fault f := by
  cases c <;> simp only [State.writeC] <;> first | (split <;> simp) | simp

/-- A write that answers a state leaves the general registers and everything no transfer writes as they were. -/
theorem State.writeC_keeps {s t : State} {c : CReg} {v : Word} (h : s.writeC c v = .next t) :
    t.regs = s.regs ∧ t.pc = s.pc ∧ t.nextPc = s.nextPc ∧ t.upcycle = s.upcycle ∧ t.utimer = s.utimer ∧
      t.upmucnt = s.upmucnt ∧ t.prefetchOpen = s.prefetchOpen ∧ t.trapEnables = s.trapEnables ∧
      t.upcycleAccess = s.upcycleAccess ∧ t.pktcountAccess = s.pktcountAccess ∧ t.utimerAccess = s.utimerAccess ∧
      t.upmucntAccess = s.upmucntAccess ∧ t.mode = s.mode ∧ t.mem = s.mem ∧ t.addressMap = s.addressMap ∧
      t.pcAlignment = s.pcAlignment ∧ t.text = s.text ∧ t.envTick = s.envTick := by
  cases c <;> simp only [State.writeC] at h <;>
    first
    | (split at h <;> cases h <;> simp)
    | (cases h <;> simp)

/-- What a write that answers a state does to USR: R44's formula on a source without the reserved HFI value, or nothing. -/
theorem State.writeC_usr {s t : State} {c : CReg} {v : Word} (h : s.writeC c v = .next t) :
    (c = .usr ∧ hfiReserved v = false ∧ t.usr = usrWrite s.usr v) ∨ (c ≠ .usr ∧ t.usr = s.usr) := by
  cases c <;> simp only [State.writeC] at h <;>
    first
    | (split at h <;> cases h <;> simp_all)
    | (cases h <;> simp)

/-- What a write that answers a state does to GP: bits 31:6 replaced (R54), or nothing. -/
theorem State.writeC_gp {s t : State} {c : CReg} {v : Word} (h : s.writeC c v = .next t) :
    (c = .gp ∧ t.gp = (v &&& 0xFFFFFFC0#32) ||| (s.gp &&& 0x3F#32)) ∨ (c ≠ .gp ∧ t.gp = s.gp) := by
  cases c <;> simp only [State.writeC] at h <;>
    first
    | (split at h <;> cases h <;> simp)
    | (cases h <;> simp)

end Sys2Proof.Machine
end

