-- ==== Sys2Proof/Laws/Transfer.lean ====
section
/-! SUPPORT. What each transfer can do, said once, and packets of one instruction. -/

namespace Sys2Proof.Machine

/-- All that `Rd = Cs` can do when it answers a state. -/
theorem moveRdCs_eq_next {k : Nat} {d : Reg} {c : CReg} {s acc t : State} :
    moveRdCs k d c s acc = .next t ↔ ∃ v, s.readC k c = .next v ∧ t = (acc.noteRead s k c).setR d v := by
  simp only [moveRdCs, andThen_eq_next, Host.Outcome.next.injEq, eq_comm (a := t)]

/-- All that `Cd = Rs` can do when it answers a state. -/
theorem moveCdRs_eq_next {c : CReg} {r : Reg} {s acc t : State} :
    moveCdRs c r s acc = .next t ↔ acc.writeC c (s.getR r) = .next t := Iff.rfl

/-- All that `Rdd = Css` can do when it answers a state. -/
theorem moveRddCss_eq_next {k : Nat} {d : Reg} {c : CReg} {s acc t : State} :
    moveRddCss k d c s acc = .next t ↔
      evenReg d = true ∧ evenCReg c = true ∧
        ∃ hi lo, s.readC k (oddOfC c) = .next hi ∧ s.readC k c = .next lo ∧ t = (acc.noteRead s k c).setRR d (hi ++ lo) := by
  unfold moveRddCss
  split <;> rename_i h
  · simp only [Bool.and_eq_true] at h
    simp only [h, true_and, State.readCC, andThen_eq_next, Host.Outcome.next.injEq, eq_comm (a := t)]
    constructor
    · rintro ⟨v, ⟨hi, h1, lo, h2, rfl⟩, ht⟩
      exact ⟨hi, lo, h1, h2, ht⟩
    · rintro ⟨hi, lo, h1, h2, ht⟩
      exact ⟨_, ⟨hi, h1, lo, h2, rfl⟩, ht⟩
  · simp only [Bool.and_eq_true, not_and] at h
    simp only [reduceCtorEq, false_iff, not_and]
    exact fun h1 h2 => absurd h2 (h h1)

/-- All that `Cdd = Rss` can do when it answers a state. -/
theorem moveCddRss_eq_next {c : CReg} {r : Reg} {s acc t : State} :
    moveCddRss c r s acc = .next t ↔
      evenCReg c = true ∧ evenReg r = true ∧
        ∃ u, acc.writeC c (s.getR r) = .next u ∧ u.writeC (oddOfC c) (s.getR (oddOf r)) = .next t := by
  have hlo : (s.getRR r).extractLsb' 0 32 = s.getR r := extract_low_append _ _
  have hhi : (s.getRR r).extractLsb' 32 32 = s.getR (oddOf r) := extract_high_append _ _
  unfold moveCddRss
  split <;> rename_i h
  · simp only [Bool.and_eq_true] at h
    simp only [h, true_and, State.writeCC, andThen_eq_next, hlo, hhi]
  · simp only [Bool.and_eq_true, not_and] at h
    simp only [reduceCtorEq, false_iff, not_and]
    exact fun h1 h2 => absurd h2 (h h1)

/-- All that `Rd = Ps` can do: it always answers. -/
theorem moveRdPs_eq_next {d : Reg} {p : PReg} {s acc t : State} :
    moveRdPs d p s acc = .next t ↔ t = acc.setR d ((s.getP p).zeroExtend 32) := by
  simp only [moveRdPs, Host.Outcome.next.injEq, eq_comm (a := t)]

/-- No transfer faults in any place of a packet (R129). -/
theorem applySlot_no_fault (k : Nat) (i : Instr) (s acc : State) (f : Fault) : applySlot k i s acc ≠ .fault f := by
  intro h
  cases i with
  | rdCs d c => simp [applySlot, moveRdCs, andThen_eq_fault, State.readC_no_fault] at h
  | cdRs c r => exact State.writeC_no_fault _ _ _ _ h
  | rddCss d c =>
    simp only [applySlot, moveRddCss] at h
    split at h
    · simp [State.readCC, andThen_eq_fault, State.readC_no_fault] at h
    · cases h
  | cddRss c r =>
    simp only [applySlot, moveCddRss] at h
    split at h
    · simp [State.writeCC, andThen_eq_fault, State.writeC_no_fault] at h
    · cases h
  | rdPs d p => simp [applySlot, moveRdPs] at h

/-- An instruction as a packet of its own is its effect on the packet's start, the packet counted. -/
theorem exec_eq_applySlot (i : Instr) (s : State) : exec i s = applySlot 0 i s (s.retire 1) := by cases i <;> rfl

/-- What one instruction of a packet can do to the state that is to come: only its destinations change among the registers,
USR only by R44's formula on a source without the reserved HFI value, GP's bits 5:0 never, a prefetch is never opened, and
everything system software, the platform and the packet's completion own stays. -/
structure SlotEffect (dests : List Dest) (acc t : State) : Prop where
  generals : ∀ r, Dest.general r ∉ dests → t.getR r = acc.getR r
  usr : t.usr = acc.usr ∨ ∃ v, hfiReserved v = false ∧ t.usr = usrWrite acc.usr v
  gp : t.gp = acc.gp ∨ ∃ v, t.gp = (v &&& 0xFFFFFFC0#32) ||| (acc.gp &&& 0x3F#32)
  prefetch : acc.prefetchOpen = false → t.prefetchOpen = false
  owned : t.pc = acc.pc ∧ t.nextPc = acc.nextPc ∧ t.trapEnables = acc.trapEnables ∧ t.upcycleAccess = acc.upcycleAccess ∧
    t.pktcountAccess = acc.pktcountAccess ∧ t.utimerAccess = acc.utimerAccess ∧ t.upmucntAccess = acc.upmucntAccess ∧
    t.mode = acc.mode ∧ t.mem = acc.mem ∧ t.addressMap = acc.addressMap ∧ t.pcAlignment = acc.pcAlignment ∧ t.text = acc.text

/-- A control register write as an effect. -/
theorem writeC_effect {s t : State} {c : CReg} {v : Word} (h : s.writeC c v = .next t) :
    SlotEffect [.control c] s t := by
  obtain ⟨hregs, hpc, hnext, -, -, -, hpf, htrap, hu, hp, hut, hup, hmode, hmem, hmap, halign, htext, -⟩ := State.writeC_keeps h
  refine ⟨fun r _ => by simp [State.getR, hregs], ?_, ?_, by rw [hpf]; exact id,
    ⟨hpc, hnext, htrap, hu, hp, hut, hup, hmode, hmem, hmap, halign, htext⟩⟩
  · rcases State.writeC_usr h with ⟨_, hv, hw⟩ | ⟨_, hw⟩
    · exact .inr ⟨v, hv, hw⟩
    · exact .inl hw
  · rcases State.writeC_gp h with ⟨_, hw⟩ | ⟨_, hw⟩
    · exact .inr ⟨v, hw⟩
    · exact .inl hw

/-- A general register write after a control register read as an effect. -/
theorem noteRead_setR_effect (acc s : State) (k : Nat) (c : CReg) (d : Reg) (v : Word) :
    SlotEffect [.general d] acc ((acc.noteRead s k c).setR d v) := by
  refine ⟨fun r hr => ?_, .inl (by simp), .inl (by simp), fun h => ?_, by simp⟩
  · have hne : d ≠ r := by
      rintro rfl
      simp at hr
    simp [State.getR_setR, hne]
  · simp only [State.setR_prefetchOpen, State.noteRead]
    split <;> simp [h]

/-- All that a packet can do when it answers a state: no register is written twice, and its instructions take effect in turn on
the completed state. -/
theorem execPacket_eq_next {is : List Instr} {s t : State} :
    execPacket is s = .next t ↔
      is.isEmpty = false ∧ distinct (is.flatMap destsOf) = true ∧ runSlots 0 is s (s.retire is.length) = .next t := by
  unfold execPacket
  cases is.isEmpty <;> cases distinct (is.flatMap destsOf) <;> simp

/-- All that the instructions of a packet from the k-th on can do when they answer a state. -/
theorem runSlots_cons_eq_next {k : Nat} {i : Instr} {is : List Instr} {s acc t : State} :
    runSlots k (i :: is) s acc = .next t ↔ ∃ u, applySlot k i s acc = .next u ∧ runSlots (k + 1) is s u = .next t := by
  simp only [runSlots, andThen_eq_next]

/-- All that a fetched packet can do when it answers a state. -/
theorem runFetched_eq_next {s t : State} {p : TextPacket} :
    runFetched s p = .next t ↔
      ∃ is, decodePacket p.bytes = .ok is ∧ runPacket is { s with nextPc := p.next } = .next t := by
  unfold runFetched
  cases decodePacket p.bytes <;> simp

/-- All that a step can do when it answers a state. -/
theorem step_eq_next {s t : State} :
    step s = .next t ↔
      ∃ p is, s.fetch = .next p ∧ decodePacket p.bytes = .ok is ∧ runPacket is { s with nextPc := p.next } = .next t := by
  simp only [step, stepPacket, andThen_eq_next, runFetched_eq_next]
  constructor
  · rintro ⟨p, hp, is, hd, h⟩
    exact ⟨p, is, hp, hd, h⟩
  · rintro ⟨p, is, hp, hd, h⟩
    exact ⟨p, hp, is, hd, h⟩

end Sys2Proof.Machine
end

