-- ==== Sys2Proof/Laws/Contracts.lean ====
section
/-! SUPPORT. What the shared operations of the contracts can do, said once. -/

namespace Sys2Proof.Machine

/-- A pointer write changes no register but the pointer. -/
theorem State.getR_setPointer (s : State) (p : Option (Reg × Word)) (q : Reg) (h : ∀ x ∈ p, x.1 ≠ q) :
    (s.setPointer p).getR q = s.getR q := by
  cases p with
  | none => rfl
  | some x => exact State.getR_setR_of_ne s (h x rfl) _

/-- All that a load can do when it answers a state. -/
theorem contractLoad_eq_next {w : Width} {d : Reg} {m : AddrMode} {o : LoadOpen} {s t : State} :
    contractLoad w d m o s = .next t ↔
      (pointerUpdate m o s).any (fun p => (loadDests w d).contains p.1) = false ∧ circularAllowed m s = true ∧
        ∃ u, loadInto w d (loadAddress m o s) o.fill s (s.retire 1) = .next u ∧ t = u.setPointer (pointerUpdate m o s) := by
  unfold contractLoad
  cases (pointerUpdate m o s).any (fun p => (loadDests w d).contains p.1) <;> cases circularAllowed m s <;>
    simp [andThen_eq_next, eq_comm (a := t)]

/-- All that a word load can do when it answers a state. -/
theorem loadInto_word_eq_next {d : Reg} {ea fill : Word} {s acc t : State} :
    loadInto .word d ea fill s acc = .next t ↔ ∃ v : BitVec (8 * 4), s.memRead ea 4 = .next v ∧ t = acc.setR d v := by
  simp only [loadInto, andThen_eq_next, Host.Outcome.next.injEq, eq_comm (a := t)]

/-- All that a doubleword load can do when it answers a state. -/
theorem loadInto_double_eq_next {d : Reg} {ea fill : Word} {s acc t : State} :
    loadInto .double d ea fill s acc = .next t ↔
      evenReg d = true ∧ ∃ v : BitVec (8 * 8), s.memRead ea 8 = .next v ∧ t = acc.setRR d v := by
  unfold loadInto
  cases evenReg d <;> simp [andThen_eq_next, eq_comm (a := t)]

/-- All that a byte load can do when it answers a state. -/
theorem loadInto_byte_eq_next {d : Reg} {ea fill : Word} {s acc t : State} :
    loadInto .byte d ea fill s acc = .next t ↔
      ∃ v : BitVec (8 * 1), s.memRead ea 1 = .next v ∧ t = acc.setR d (fill.extractLsb' 8 24 ++ v) := by
  simp only [loadInto, andThen_eq_next, Host.Outcome.next.injEq, eq_comm (a := t)]

/-- All that a halfword load can do when it answers a state. -/
theorem loadInto_half_eq_next {d : Reg} {ea fill : Word} {s acc t : State} :
    loadInto .half d ea fill s acc = .next t ↔
      ∃ v : BitVec (8 * 2), s.memRead ea 2 = .next v ∧ t = acc.setR d (fill.extractLsb' 16 16 ++ v) := by
  simp only [loadInto, andThen_eq_next, Host.Outcome.next.injEq, eq_comm (a := t)]

/-- A loop setup changes no bit of USR but 9:8. -/
theorem usrSetLpcfge_keeps (w : Option (BitVec 2)) (u : Word) (i : Nat) (h : i < 8 ∨ 10 ≤ i) :
    (usrSetLpcfge w u).getLsbD i = u.getLsbD i := by
  cases w with
  | none => rfl
  | some v =>
    have m : ∀ i, i < 32 → i < 8 ∨ 10 ≤ i → (0xFFFFFCFF#32).getLsbD i = true := by decide
    by_cases hi : i < 32
    · have hz : (v.zeroExtend 32 <<< 8).getLsbD i = false := by
        rcases h with h | h
        · simp [h]
        · simp [BitVec.getLsbD_of_ge v (i - 8) (by omega)]
      simp only [usrSetLpcfge, BitVec.getLsbD_or, BitVec.getLsbD_and, m i hi h, hz, Bool.and_true, Bool.or_false]
    · rw [BitVec.getLsbD_of_ge _ _ (by omega), BitVec.getLsbD_of_ge _ _ (by omega)]

/-- The new pointer of a circular access lies inside its buffer, if it is not empty. -/
theorem circularPointer_inside (wrap : CircularOperands → Word) (c : CircularOperands) (h : c.length ≠ 0) :
    c.inside (circularPointer wrap c) = true := by
  unfold circularPointer
  split
  · assumption
  · have hp : 0 < c.length.toNat := Nat.pos_of_ne_zero fun e => h (BitVec.eq_of_toNat_eq (by simpa using e))
    have hl := c.length.isLt
    simp only [CircularOperands.inside, decide_eq_true_eq]
    rw [BitVec.add_comm, BitVec.add_sub_cancel]
    simp only [BitVec.umod_eq, BitVec.toNat_umod, BitVec.truncate_eq_setWidth, BitVec.toNat_setWidth]
    rw [Nat.mod_eq_of_lt (by omega : c.length.toNat < 2 ^ 32)]
    exact Nat.mod_lt _ hp

/-- The write of an operand changes no register but its own. -/
theorem State.getR_setOperand_of_notMem (s : State) (d : GeneralOperand) (v : DWord) (q : Reg) (h : q ∉ d.regs) :
    (s.setOperand d v).getR q = s.getR q := by
  cases d with
  | single r =>
    simp only [GeneralOperand.regs, List.mem_singleton] at h
    exact State.getR_setR_of_ne s (Ne.symm h) _
  | pair r =>
    simp only [GeneralOperand.regs, List.mem_cons, List.not_mem_nil, or_false, not_or] at h
    exact State.getR_setRR_of_ne s h.1 h.2 _

/-- The write of an operand, by form: a register takes bits 31:0, a pair all of them. -/
@[simp] theorem State.setOperand_single (s : State) (r : Reg) (v : DWord) :
    s.setOperand (.single r) v = s.setR r (v.extractLsb' 0 32) := rfl
@[simp] theorem State.setOperand_pair (s : State) (r : Reg) (v : DWord) : s.setOperand (.pair r) v = s.setRR r v := rfl

/-- All that an allocated frame can do when it answers a state. -/
theorem contractAllocframe_eq_next {o : FrameOpen} {s t : State} :
    contractAllocframe o s = .next t ↔
      frameOutOfBounds o s = false ∧ ∃ u, s.memWrite (frameSp o s + o.slot) 4 s.scrambledReturn = .next u ∧
        t = ((u.retire 1).setR regSP (frameSp o s)).setR regFP (frameSp o s + o.fp) := by
  unfold contractAllocframe
  cases frameOutOfBounds o s <;> simp [andThen_eq_next, raise, eq_comm (a := t)]

end Sys2Proof.Machine
end

