-- ==== Sys2Proof/Laws/PerInstr.lean ====
section
/-! SUPPORT. Statements made per instruction: the encoder's word carries the match bits of its row of the opcode table. -/

namespace Sys2Proof.Laws.RowMatch

/-- The match value and the mask of an instruction's row (R105). -/
def rowOf : Instr → Word × Word
  | .rdCs _ _ => (matchRdCs, maskCr)
  | .cdRs _ _ => (matchCdRs, maskCr)
  | .rddCss _ _ => (matchRddCss, maskCr)
  | .cddRss _ _ => (matchCddRss, maskCr)
  | .rdPs _ _ => (matchRdPs, maskPs)

/-- The encoded word, under its row's mask, is its row's match value. -/
def Statement (i : Instr) : Prop := encode i &&& (rowOf i).2 = (rowOf i).1

theorem assemble_cr (row : Word) (h : row &&& maskCr = row) (s d : Fin 32) :
    assemble row s.val d.val &&& maskCr = row := by
  have hs : ∀ s d : Fin 32, ((BitVec.ofNat 32 s.val <<< 16) ||| 0xC000#32 ||| BitVec.ofNat 32 d.val) &&& maskCr = 0#32 := by decide
  have e : assemble row s.val d.val =
      row ||| ((BitVec.ofNat 32 s.val <<< 16) ||| 0xC000#32 ||| BitVec.ofNat 32 d.val) := by
    simp only [assemble, BitVec.or_assoc]
  rw [e, BitVec.and_comm, BitVec.and_or_distrib_left, BitVec.and_comm maskCr row, h, BitVec.and_comm maskCr, hs, BitVec.or_zero]

theorem rdCs (d : Reg) (s : CReg) : Statement (.rdCs d s) := assemble_cr _ (by decide) _ _
theorem cdRs (d : CReg) (s : Reg) : Statement (.cdRs d s) := assemble_cr _ (by decide) _ _
theorem rddCss (d : Reg) (s : CReg) : Statement (.rddCss d s) := assemble_cr _ (by decide) _ _
theorem cddRss (d : CReg) (s : Reg) : Statement (.cddRss d s) := assemble_cr _ (by decide) _ _
theorem rdPs (d : Reg) (s : PReg) : Statement (.rdPs d s) := by
  revert d s
  unfold Statement
  decide

end Sys2Proof.Laws.RowMatch
end

