-- ==== Sys2Proof/Tests/Slice0.lean ====
section
/-! SUPPORT. Tests: expected values come from spec/95_test_vectors.md or are computed by hand from a rule, as each test says. The
second half holds one witness per statement that has hypotheses: a concrete case that meets all of them. -/

namespace Sys2Proof.Tests

open Sys2Proof.Machine Sys2Proof.Claims

/-! ### Helpers -/

/-- A launch state of the test vectors: user mode, USR = 00300400 (PCUME = 1, FPCOPROC = 11), r = 0, access to every counter. -/
def launch : State := { State.reset with usr := 0x00300400, gp := 0, pc := 0x1000, nextPc := 0x1004 }

/-- The same with every access switch off. -/
def switchedOff : State :=
  { launch with upcycleAccess := false, pktcountAccess := false, utimerAccess := false, upmucntAccess := false }

/-- A check of the state that an operation answers. -/
def after (o : Res State) (check : State → Bool) : Bool :=
  match o with
  | .next t => check t
  | .fault _ => false
  | .refused _ => false

/-- Whether an operation is refused with a reason. -/
def refusedWith (o : Res State) (r : Refusal) : Bool :=
  match o with
  | .next _ => false
  | .fault _ => false
  | .refused q => q == r

/-- Whether a decoding gives exactly these instructions. -/
def decodesTo (bytes : List Byte) (is : List Instr) : Bool :=
  match decodePacket bytes with
  | .ok js => js == is
  | .error _ => false

/-- Whether a word is refused with a reason. -/
def wordRefused (w : Word) (e : DecodeError) : Bool :=
  match decodeWord w with
  | .ok _ => false
  | .error f => f == e

/-- Whether a packet's bytes are refused with a reason. -/
def packetRefused (bytes : List Byte) (e : DecodeError) : Bool :=
  match decodePacket bytes with
  | .ok _ => false
  | .error f => f == e

/-! ### Well-formed terms: each check refuses its ill-formed term (R13, R23) -/

theorem test_odd_general_in_rddCss : (Instr.rddCss 1 .sa0).wellFormed = false := by decide
theorem test_odd_control_in_rddCss : (Instr.rddCss 0 .lc0).wellFormed = false := by decide
theorem test_odd_control_in_cddRss : (Instr.cddRss .lc0 0).wellFormed = false := by decide
theorem test_odd_general_in_cddRss : (Instr.cddRss .sa0 31).wellFormed = false := by decide
theorem test_last_pairs_are_well_formed :
    (Instr.rddCss 30 .utimerLo).wellFormed = true ∧ (Instr.cddRss .utimerLo 30).wellFormed = true := by decide

/-! ### Decoding: words and bytes of the table of transfer examples, spec/95_test_vectors.md part 1 -/

theorem test_decode_rdCs : decodesTo [0x09, 0xC0, 0x09, 0x6A] [.rdCs 9 .pc] = true := by decide
theorem test_decode_rdCs_utimerHi : decodesTo [0x05, 0xC0, 0x1F, 0x6A] [.rdCs 5 .utimerHi] = true := by decide
theorem test_decode_cdRs : decodesTo [0x03, 0xC0, 0x36, 0x62] [.cdRs .lc1 22] = true := by decide
theorem test_decode_cdRs_frameKey : decodesTo [0x11, 0xC0, 0x21, 0x62] [.cdRs .frameKey 1] = true := by decide
theorem test_decode_rddCss : decodesTo [0x04, 0xC0, 0x0E, 0x68] [.rddCss 4 .upcycleLo] = true := by decide
theorem test_decode_rddCss_packets : decodesTo [0x08, 0xC0, 0x12, 0x68] [.rddCss 8 .pktcountLo] = true := by decide
theorem test_decode_cddRss : decodesTo [0x00, 0xC0, 0x24, 0x63] [.cddRss .sa0 4] = true := by decide
theorem test_decode_rdPs : decodesTo [0x08, 0xC0, 0x41, 0x89] [.rdPs 8 1] = true := by decide
theorem test_encode_table : encode (.rdCs 9 .pc) = 0x6A09C009 ∧ encode (.cdRs .lc1 22) = 0x6236C003 ∧
    encode (.rddCss 8 .pktcountLo) = 0x6812C008 ∧ encode (.cddRss .sa0 4) = 0x6324C000 ∧ encode (.rdPs 8 1) = 0x8941C008 := by
  decide
/-- A first word with parse bits 01, then one with 11 (R106): two instructions of one packet. -/
theorem test_decode_packet_of_two :
    decodesTo [0x09, 0x40, 0x09, 0x6A, 0x08, 0xC0, 0x41, 0x89] [.rdCs 9 .pc, .rdPs 8 1] = true := by decide
/-- Odd register fields name no pair (R13, R105); a word of no row is no instruction; three bytes are no word. -/
theorem test_decode_refuses :
    wordRefused 0x6800C001 (.oddPair 0x6800C001) = true ∧ wordRefused 0x6321C000 (.oddPair 0x6321C000) = true ∧
      wordRefused 0x0000C000 (.unknownWord 0x0000C000) = true ∧ decodesTo [0x09, 0xC0, 0x09] [] = false := by decide
/-- R106: a duplex, a last word with parse bits 01, a first word with 11, a first word that ends a hardware loop. -/
theorem test_framing_refused :
    wordRefused 0x6A090009 (.duplex 0x6A090009) = true ∧ packetRefused [0x09, 0x40, 0x09, 0x6A] (.badFraming 0x6A094009) = true ∧
      packetRefused [0x09, 0xC0, 0x09, 0x6A, 0x08, 0xC0, 0x41, 0x89] (.badFraming 0x6A09C009) = true ∧
      packetRefused [0x09, 0x80, 0x09, 0x6A, 0x08, 0xC0, 0x41, 0x89] (.loopEnd 0x6A098009) = true := by decide
/-- The match words of the opcode table (R105). -/
theorem test_table_rows :
    decodeTableWord 32 0x6A000000 = some (.rdCs 0 .sa0) ∧ decodeTableWord 32 0x62200000 = some (.cdRs .sa0 0) ∧
    decodeTableWord 32 0x68000000 = some (.rddCss 0 .sa0) ∧ decodeTableWord 32 0x63200000 = some (.cddRss .sa0 0) ∧
    decodeTableWord 32 0x89400000 = some (.rdPs 0 0) := by decide
/-- No two rows of the opcode table match one word: their fixed bits differ under the common mask. -/
theorem test_rows_disjoint :
    [(matchRdCs, maskCr), (matchCdRs, maskCr), (matchRddCss, maskCr), (matchCddRss, maskCr), (matchRdPs, maskPs)].Pairwise
      (fun a b => (a.1 ^^^ b.1) &&& (a.2 &&& b.2) ≠ 0) := by decide
theorem test_control_numbers : ∀ n : Fin 32, (CReg.ofNum n).num = n := by decide

/-! ### USR (R32, R44) -/

/-- The fields cover each bit once, and the RW column gives the mask of R44. -/
theorem test_usr_fields :
    (usrFields.map UsrField.width).sum = 32 ∧
      usrFields.foldl (fun m f => m ||| f.mask) 0 = 0xFFFFFFFF ∧
      (usrFields.filter UsrField.writable).foldl (fun m f => m ||| f.mask) 0 = usrWriteMask ∧
      usrWriteMask ^^^ usrKeepMask = 0xFFFFFFFF := by decide
/-- spec/95 part 2.2, two rows: a write under the mask and the clearing of every RW field. -/
theorem test_usr_write_vectors :
    usrWrite 0x00300000 0xFFFEFFFF = 0x3EF0FF3F ∧ usrWrite 0x3EF0FF3F 0 = 0x00300000 ∧
      usrWrite 0x00300000 0x80000000 = 0x00300000 := by decide

/-! ### The five instructions: vectors of spec/95 part 2 -/

/-- 2.1: `R9 = PC` at 00001000; the PC moves to the next packet and the packet counts (2.3). -/
theorem test_rdCs_pc :
    after (exec (.rdCs 9 .pc) launch) (fun t => t.getR 9 == 0x1000 && t.pc == 0x1004 && t.pktcount == 1) = true := by decide
/-- 2.1: `R8 = PKTCOUNTLO` with access disabled reads 0 and does not clear the counter. -/
theorem test_rdCs_disabled_count :
    after (exec (.rdCs 8 .pktcountLo) { switchedOff with usr := 0, pktcount := 0x0000000700000009 })
      (fun t => t.getR 8 == 0 && t.pktcount == 0x0000000700000009) = true := by decide
/-- 2.2: `P3:0 = R4`. -/
theorem test_cdRs_predicates :
    after (exec (.cdRs .p30 4) (launch.setR 4 0x00FF01A5))
      (fun t => t.getP 0 == 0xA5 && t.getP 1 == 0x01 && t.getP 2 == 0xFF && t.getP 3 == 0x00) = true := by decide
/-- 2.3: `PKTCOUNTLO = R0`, the increment carried before the low half was stored. -/
theorem test_cdRs_count_low :
    after (exec (.cdRs .pktcountLo 0) { launch.setR 0 5 with pktcount := 0x00000000FFFFFFFF })
      (fun t => t.pktcount == 0x0000000100000005) = true := by decide
/-- 2.4: `R3:2 = C1:0`, the odd register the high half. -/
theorem test_rddCss_loop :
    after (exec (.rddCss 2 .sa0) { launch with lc0 := 0x0A, sa0 := 0x3000 }) (fun t => t.getR 3 == 0x0A && t.getR 2 == 0x3000) =
      true := by decide
/-- 2.4: `R1:0 = C5:4` contains reserved C5. -/
theorem test_rddCss_reserved : refusedWith (exec (.rddCss 0 .p30) launch) (.reservedControl .c5) = true := by decide
/-- 2.5: `C11:10 = R1:0`, the GP mask applies to the half (r = 0). -/
theorem test_cddRss_pointers :
    after (exec (.cddRss .ugp 0) ((launch.setR 1 0x1234567F).setR 0 0xDEADBEEF))
      (fun t => t.gp == 0x12345640 && t.ugp == 0xDEADBEEF) = true := by decide
/-- 2.5: `C9:8 = R1:0` contains the PC, which is read-only. -/
theorem test_cddRss_pc : refusedWith (exec (.cddRss .usr 0) launch) (.readOnlyControl .pc) = true := by decide
/-- 2.6: `R2 = P3` with P3 = 80 is not sign-extended. -/
theorem test_rdPs_zero_extends :
    after (exec (.rdPs 2 3) (launch.setP 3 0x80)) (fun t => t.getR 2 == 0x80) = true := by decide
/-- 2.6: `R1 = P0` copies all eight bits. -/
theorem test_rdPs_all_bits : after (exec (.rdPs 1 0) (launch.setP 0 0xA5)) (fun t => t.getR 1 == 0xA5) = true := by decide

/-! ### Contracts: vectors of spec/95 part 2.7 -/

/-- A circular pointer that stays inside moves by its increment (R162, R163). -/
theorem test_circular_step :
    circularPointer (fun _ => 0) ⟨0x100, 4, 0x100, 8⟩ = 0x104 ∧ circularPointer (fun _ => 4) ⟨0x104, 4, 0x100, 8⟩ = 0x104 := by
  decide

theorem test_circular_fields : circI 0xF0FE0010 = 0x7FF ∧ circLength 0xF0FE0010 = 0x10 ∧ circI 0x10020100 = 0x081 ∧
    circLength 0x0001FFFF = 0x1FFFF := by decide
theorem test_scrambled_return :
    State.scrambledReturn { launch.setR 31 0x4000 with frameKey := 0xA5A5A5A5 } = 0xA5A5E5A5 := by decide
theorem test_add_to_sp :
    after (contractAddImm 29 29 0xFFFFFFF8 (launch.setR 29 0x10000)) (fun t => t.getR 29 == 0xFFF8) = true := by decide
/-- R157: only the high element saturates, and OVF becomes 1; element operation by hand. -/
theorem test_vaddw_lanes :
    after (contractVaddwSat (fun a b => (a + b, a == 0x7FFFFFFF)) 8 8 2 (((launch.setR 9 0x7FFFFFFF).setR 8 1).setR 2 1))
      (fun t => t.getR 8 == 2 && t.getR 9 == 0x7FFFFFFF && t.usr == 0x00300401) = true := by decide
/-- R106: parse bits 11 and 00 before the last word, 10 in the second of three words, and five words. -/
theorem test_inner_framing_refused :
    packetRefused (innerBytes [.rdPs 8 1] ++ bytesOfWord 0x6A09C009 ++ bytesOfWord 0x6A09C009) (.badFraming 0x6A09C009) = true ∧
      packetRefused (innerBytes [.rdPs 8 1] ++ bytesOfWord 0x6A090009 ++ bytesOfWord 0x6A09C009) (.badFraming 0x6A090009) = true ∧
      packetRefused (innerBytes [.rdPs 8 1] ++ bytesOfWord 0x6A098009 ++ bytesOfWord 0x6A09C009) (.loopEnd 0x6A098009) = true ∧
      packetRefused (innerBytes [.rdPs 8 1, .rdPs 7 1, .rdPs 6 1, .rdPs 5 1] ++ bytesOfWord 0x6A09C009) .packetTooLong = true := by
  decide
/-- The source's own circular load writes one register twice (U21). -/
theorem test_circular_double_write :
    refusedWith (contractLoad .word 2 (.circularImm 2 8 0) ⟨false, fun a => a, fun i => i.zeroExtend 32, fun _ => 0, 0⟩ launch)
      .doubleWrite = true := by decide
theorem test_loop0 :
    after (contractLoop0 0x3000 none 4 (launch.setR 4 0x64)) (fun t => t.lc0 == 0x64 && t.sa0 == 0x3000) = true := by decide

/-! ### A program: the first packets of program 1 of spec/95 part 3 -/

/-- The bytes of the program at 00001000. -/
def program1 : List Byte :=
  [0x04, 0xC0, 0x24, 0x62, 0x08, 0xC0, 0x41, 0x89, 0x00, 0xC0, 0x04, 0x6A, 0x02, 0xC0, 0x43, 0x89]

theorem test_program1_packets :
    (frameImage 0x1000 [] program1).map (fun p => (p.addr, p.next)) =
      [(0x1000, 0x1004), (0x1004, 0x1008), (0x1008, 0x100C), (0x100C, 0x1010)] := by decide
theorem test_program1_first_step :
    after (step ((launch.setR 4 0x00FF01A5).loadImage 0x1000 program1)) (fun t => t.pc == 0x1004 && t.getP 2 == 0xFF) = true := by
  decide
/-- The first step after reset runs a word placed for the fetch: `R9 = PC` at address 0. -/
theorem test_first_step_after_reset :
    after (step (State.reset.withFetchWord 32 0x6A09C009)) (fun t => t.getR 9 == 0 && t.pc == 4) = true := by decide

/-! ## Witnesses: for each statement with hypotheses, a case that meets all of them -/

/-- A program of a packet of two instructions, `R9 = PC` and `R8 = P1`, at the launch PC. -/
def pairText : List TextPacket := [⟨0x1000, 0x1008, [0x09, 0x40, 0x09, 0x6A, 0x08, 0xC0, 0x41, 0x89]⟩]

/-- The launch state with that program. -/
def pairLaunch : State := { launch with text := pairText }

/-- A program of one packet with one instruction, `R9 = PC`. -/
def singleLaunch : State := { launch with text := [⟨0x1000, 0x1004, [0x09, 0xC0, 0x09, 0x6A]⟩] }

/-- A program whose second packet ends exactly at 2^32. -/
def topText : List TextPacket := [⟨0x1000, 0x1004, [0x09, 0xC0, 0x09, 0x6A]⟩, ⟨0xFFFFFFFC, 0, [0x08, 0xC0, 0x41, 0x89]⟩]

/-- A launch state with a word of memory written at 00000100, where R0 and GP point. -/
def dataLaunch : State :=
  { launch.setR 0 0x100 with gp := 0x100, mem := [(0x100, 0x44), (0x101, 0x33), (0x102, 0x22), (0x103, 0x11)] }

/-- The same with a doubleword there. -/
def wideLaunch : State :=
  { dataLaunch with mem := dataLaunch.mem ++ [(0x104, 0x88), (0x105, 0x77), (0x106, 0x66), (0x107, 0x55)] }

/-! ### Encoding and packets -/

theorem witness_DecodeEncodeRoundTrip : (Instr.rddCss 30 .utimerLo).wellFormed = true ∧ (Instr.rdPs 31 3).wellFormed = true :=
  ⟨rfl, rfl⟩
theorem witness_DecodedWordHasItsOperandBits :
    decodeWord 0x89FFFFFF = .ok (.rdPs 31 3) ∧ decodeWord 0x6A1F7FFF = .ok (.rdCs 31 .utimerHi) := ⟨rfl, rfl⟩
/-- A packet of the greatest length, a packet that decodes, the most words that may stand before another one and before a loop end,
and words of each value of the parse bits. -/
theorem witness_PacketOfEncodedWordsDecodes :
    (∀ i ∈ [Instr.rdCs 9 .pc, .cddRss .sa0 4, .rdPs 8 1, .cdRs .ugp 3], i.wellFormed = true) ∧
      [Instr.rdCs 9 .pc, .cddRss .sa0 4, .rdPs 8 1, .cdRs .ugp 3].length = 4 ∧
      [Instr.rdCs 9 .pc, .cddRss .sa0 4, .rdPs 8 1].length < 4 ∧ [Instr.rdCs 9 .pc].length < 2 ∧
      decodesTo [0x09, 0x40, 0x09, 0x6A, 0x08, 0xC0, 0x41, 0x89] [.rdCs 9 .pc, .rdPs 8 1] = true ∧
      (0x6A09C009#32).extractLsb' 14 2 = 3#2 ∧ (0x6A090009#32).extractLsb' 14 2 = 0#2 ∧
      (0x6A098009#32).extractLsb' 14 2 = 2#2 ∧ (0x6A094009#32).extractLsb' 14 2 = 1#2 ∧ bytesOfWord 0x8941C008 ≠ [] := by decide
theorem witness_StepRunsDecodedInstruction :
    ∃ p, singleLaunch.fetch = .next p ∧ decodePacket p.bytes = .ok [.rdCs 9 .pc] := ⟨_, rfl, rfl⟩
theorem witness_StepRunsWholePacket :
    ∃ p, pairLaunch.fetch = .next p ∧ decodePacket p.bytes = .ok [.rdCs 9 .pc, .rdPs 8 1] := ⟨_, rfl, rfl⟩
/-- A placed word at both ends of the address space; then a PC that is no legal one, a legal one with no packet, a text that
reaches 2^32 by one byte, bytes that do not decode, and a packet without bytes. -/
theorem witness_FetchFindsItsPacketOrIsRefused :
    ((Instr.rdCs 9 .pc).wellFormed = true ∧ textFits State.reset.text = true ∧
      State.reset.pc.toNat % State.reset.pcAlignment = 0 ∧ (0xFFFFFFFB#32).toNat % State.reset.pcAlignment = 0 ∧
      State.reset.pc.toNat + 4 < 4294967296 ∧ (0xFFFFFFFB#32).toNat + 4 < 4294967296) ∧
      (0x1002#32).toNat % 4 ≠ 0 ∧
      (launch.pc.toNat % launch.pcAlignment = 0 ∧ ∀ p ∈ launch.text, p.addr ≠ launch.pc) ∧
      ((∃ p ∈ topText, p.addr = launch.pc) ∧ ∃ q ∈ topText, 4294967296 ≤ q.addr.toNat + q.bytes.length) ∧
      (({ launch with text := [⟨0x1000, 0x1003, [0x09, 0xC0, 0x09]⟩] } : State).fetch = .next ⟨0x1000, 0x1003, [0x09, 0xC0, 0x09]⟩ ∧
        decodePacket [0x09, 0xC0, 0x09] = .error .truncated) ∧
      ({ launch with text := [⟨0x1000, 0x1000, []⟩] } : State).fetch = .next ⟨0x1000, 0x1000, []⟩ :=
  ⟨by decide, by decide, by decide, by decide, ⟨rfl, rfl⟩, rfl⟩
theorem witness_PacketReadsOneProgramCounter :
    (∃ t, execPacket [.rdPs 8 1, .rdCs 9 .pc, .rddCss 2 .usr] launch = .next t) ∧
      Instr.rdCs 9 .pc ∈ [Instr.rdPs 8 1, Instr.rdCs 9 .pc, Instr.rddCss 2 .usr] ∧
      Instr.rddCss 2 .usr ∈ [Instr.rdPs 8 1, Instr.rdCs 9 .pc, Instr.rddCss 2 .usr] := ⟨⟨_, rfl⟩, by decide, by decide⟩
theorem witness_PacketReadsBeforeItWrites :
    CReg.sa0 ∈ plainControls ∧ (∃ t, execPacket [.cdRs .sa0 3, .rdCs 3 .sa0] launch = .next t) ∧
      Instr.rdCs 3 .sa0 ∈ [Instr.cdRs .sa0 3, Instr.rdCs 3 .sa0] ∧ Instr.cdRs .sa0 3 ∈ [Instr.cdRs .sa0 3, Instr.rdCs 3 .sa0] :=
  ⟨by decide, ⟨_, rfl⟩, by decide, by decide⟩
theorem witness_PacketCountsOnce :
    (∃ t, execPacket [.rdCs 9 .pc, .rdPs 8 1] launch = .next t) ∧
      Dest.control .pktcountLo ∉ [Instr.rdCs 9 .pc, Instr.rdPs 8 1].flatMap destsOf ∧
      Dest.control .pktcountHi ∉ [Instr.rdCs 9 .pc, Instr.rdPs 8 1].flatMap destsOf := ⟨⟨_, rfl⟩, by decide, by decide⟩
/-- Two different instructions that both write R9, and one instruction twice. -/
theorem witness_PacketWithDoubleWriteIsRefused :
    [Instr.rdCs 9 .pc, .rddCss 8 .sa0].Sublist [.rdCs 9 .pc, .rdPs 7 1, .rddCss 8 .sa0] ∧
      [Instr.rdCs 9 .pc, .rdCs 9 .pc].Sublist [.rdCs 9 .pc, .rdCs 9 .pc] ∧
      Dest.general 9 ∈ destsOf (.rdCs 9 .pc) ∧ Dest.general 9 ∈ destsOf (.rddCss 8 .sa0) := by decide
theorem witness_StepFrame :
    ∃ t p, pairLaunch.fetch = .next p ∧ decodePacket p.bytes = .ok [.rdCs 9 .pc, .rdPs 8 1] ∧ step pairLaunch = .next t :=
  ⟨_, _, rfl, rfl, rfl⟩

/-! ### The transfers -/

/-- Each kind of control register: plain, the PC, a counter with access on, counters with access off. -/
theorem witness_RdCsCopiesControl :
    fixedRead launch .sa0 = some 0 ∧ fixedRead launch .frameKey = some 0 ∧ fixedRead launch .p30 = some 0 ∧
      fixedRead launch .pc = some 0x1000 ∧ fixedRead launch .pktcountHi = some 0 ∧
      fixedRead switchedOff .pktcountLo = some 0 ∧ fixedRead switchedOff .upcycleHi = some 0 ∧
      fixedRead switchedOff .utimerHi = some 0 := by decide
theorem witness_RdCsReadsUsr : ({ launch with prefetchOpen := false } : State).prefetchOpen = false := rfl
theorem witness_RdCsReadsRunningCounter :
    ((CReg.upcycleHi = .upcycleLo ∨ CReg.upcycleHi = .upcycleHi) ∧ launch.upcycleAccess = true) ∧
      ((CReg.utimerHi = .utimerLo ∨ CReg.utimerHi = .utimerHi) ∧ launch.utimerAccess = true) :=
  ⟨⟨.inr rfl, rfl⟩, .inr rfl, rfl⟩
/-- The single numbers 5, 20 and 29, and the pair fields 4 and 28. -/
theorem witness_ReservedNumbersAreRefused :
    CReg.c5.num = 5 ∧ (20 ≤ CReg.c20.num ∧ CReg.c20.num ≤ 29) ∧ (20 ≤ CReg.c29.num ∧ CReg.c29.num ≤ 29) ∧
      CReg.p30.num ∈ ([4, 20, 22, 24, 26, 28] : List (Fin 32)) ∧ CReg.c28.num ∈ ([4, 20, 22, 24, 26, 28] : List (Fin 32)) ∧
      evenReg 30 = true := by decide
theorem witness_CdRsStoresPlainControl : CReg.sa0 ∈ plainControls ∧ CReg.p30 ∈ plainControls ∧ CReg.frameKey ∈ plainControls := by decide
/-- The reserved value, and the largest source without it. -/
theorem witness_CdRsWritesUsrThroughItsMask :
    ((launch.setR 0 0x00018000).getR 0).extractLsb' 15 2 = 3#2 ∧ ((launch.setR 0 0xFFFEFFFF).getR 0).extractLsb' 15 2 ≠ 3#2 := by
  decide
theorem witness_PacketCountWrites :
    launch.pktcountAccess = true ∧ switchedOff.pktcountAccess = false ∧ evenReg 30 = true := ⟨rfl, rfl, rfl⟩
theorem witness_ReadOnlyRegistersAreNotWritten : CReg.usr = .usr ∨ CReg.usr = .upcycleLo ∨ CReg.usr = .utimerLo := .inl rfl
/-- Two plain halves, and two halves of a disabled counter. -/
theorem witness_RddCssCopiesPair :
    (evenReg 30 = true ∧ evenCReg .sa0 = true ∧ fixedRead launch (oddOfC .sa0) = some 0 ∧ fixedRead launch .sa0 = some 0) ∧
      evenCReg .utimerLo = true ∧ fixedRead switchedOff (oddOfC .utimerLo) = some 0 ∧ fixedRead switchedOff .utimerLo = some 0 := by
  decide
theorem witness_RddCssReadsPcAndUsr : evenReg 0 = true := rfl
theorem witness_RddCssSamplesCounterOnce :
    evenReg 4 = true ∧ launch.upcycleAccess = true ∧ launch.utimerAccess = true := ⟨rfl, rfl, rfl⟩
theorem witness_CddRssStoresPlainPair : CReg.sa0 ∈ plainPairs ∧ CReg.frameLimit ∈ plainPairs ∧ evenReg 30 = true := by decide
theorem witness_CddRssWritesGpAndUgp : evenReg 30 = true := rfl
theorem witness_OddPairsAreRefused :
    (evenReg 31 = false ∨ evenCReg .sa0 = false) ∧ (evenReg 0 = false ∨ evenCReg .lc0 = false) := ⟨.inl rfl, .inr rfl⟩
theorem witness_UserGeneralPointerIsTouchedByTransfersOnly :
    namesUgp (.cdRs .gp 0) = false ∧ ∃ t, exec (.cdRs .gp 0) launch = .next t := ⟨rfl, _, rfl⟩
theorem witness_WrittenControlReadsBack : CReg.m1 ∈ plainControls ∧ ∃ t, exec (.cdRs .m1 31) launch = .next t :=
  ⟨by decide, _, rfl⟩
theorem witness_WrittenPacketCountReadsBack :
    evenReg 0 = true ∧ evenReg 30 = true ∧ ∃ t, exec (.cddRss .pktcountLo 0) launch = .next t := ⟨rfl, rfl, _, rfl⟩
/-- The first clause with a transfer that answers a state, the others with each counter, enabled and disabled. -/
theorem witness_NoTransferNeedsPrivilege :
    (∃ t, exec (.rdCs 9 .pc) { launch with mode := .user } = .next t) ∧ CReg.upcycleHi ∈ counterControls ∧
      disabledCounter switchedOff .upcycleHi ∧ disabledCounter switchedOff .pktcountLo ∧ disabledCounter switchedOff .utimerLo ∧
      CReg.utimerLo ∈ counterControls ∧ evenReg 30 = true ∧ evenCReg .utimerLo = true :=
  ⟨⟨_, rfl⟩, by decide, .inl ⟨.inr rfl, rfl⟩, .inr (.inl ⟨.inl rfl, rfl⟩), .inr (.inr ⟨.inl rfl, rfl⟩), by decide, rfl, rfl⟩
theorem witness_DisabledPacketCountLeaksNothing :
    (pairLaunch.pktcount = 0) ∧ ({ pairLaunch with pktcountAccess := false } : State).pktcountAccess = false ∧
      ∃ t, step { pairLaunch with pktcountAccess := false } = .next t := ⟨rfl, rfl, _, rfl⟩
theorem witness_ClearedPrefetchStaysClear :
    ({ singleLaunch with prefetchOpen := false } : State).prefetchOpen = false ∧
      (∃ t, step { singleLaunch with prefetchOpen := false } = .next t) ∧
      ∃ u, exec (.rdCs 6 .usr) { singleLaunch with prefetchOpen := false } = .next u := ⟨rfl, ⟨_, rfl⟩, _, rfl⟩

/-! ### Invariants -/

/-- The reset state with a program loaded. -/
def loaded : State := State.reset.withFetchWord 32 0x6A09C009

theorem loaded_usr_bit (i : Nat) (hi : i < 32) :
    loaded.usr.getLsbD i =
      ((Config.usrReserved.getLsbD i && usrReservedMask.getLsbD i) || (!decide (i < 20) && Config.fpcoproc.getLsbD (i - 20))) := by
  have h : loaded.usr = (Config.usrReserved &&& usrReservedMask) ||| (Config.fpcoproc.zeroExtend 32 <<< 20) := rfl
  simp [h, hi]

/-- The loaded machine is well-formed, whatever the run's parameters. -/
theorem loaded_inv : loaded.Inv := by
  refine ⟨rfl, ?_, ?_, ?_, ?_⟩
  · have h : loaded.usr.extractLsb' 15 2 = 0#2 := by
      refine BitVec.eq_of_getLsbD_eq fun i hi => ?_
      have m : ∀ i, i < 2 → usrReservedMask.getLsbD (15 + i) = false := by decide
      simp [loaded_usr_bit _ (show 15 + i < 32 by omega), m i hi, show 15 + i < 20 by omega]
    simp [hfiReserved, h]
  · refine BitVec.eq_of_getLsbD_eq fun i hi => ?_
    have m : ∀ i, i < 2 → usrReservedMask.getLsbD (20 + i) = false := by decide
    by_cases h : i < 20
    · simp [loaded_usr_bit i hi, h]
    · by_cases h2 : i - 20 < 2
      · have e := m (i - 20) h2
        rw [show 20 + (i - 20) = i by omega] at e
        simp [e]
      · simp [loaded_usr_bit i hi, BitVec.getLsbD_of_ge Config.fpcoproc (i - 20) (by omega)]
  · refine BitVec.eq_of_getLsbD_eq fun i hi => ?_
    have m : ∀ i, i < 2 → usrReservedMask.getLsbD (20 + i) = false := by decide
    simp [loaded_usr_bit _ (show 20 + i < 32 by omega), m i hi, hi]
  · have h : loaded.gp = Config.gpReserved.zeroExtend 32 := rfl
    refine BitVec.eq_of_getLsbD_eq fun i hi => ?_
    simp [h, hi, show i < 32 by omega]

theorem witness_EveryStepKeepsInv : loaded.Inv ∧ ∃ t, step loaded = .next t := ⟨loaded_inv, _, rfl⟩
theorem witness_StepChangesNothingFixed : ∃ t, step pairLaunch = .next t := ⟨_, rfl⟩
theorem witness_RunsKeepInvAndFixedState : loaded.Inv ∧ ∃ t, step loaded = .next t ∧ ReachableFrom loaded t :=
  ⟨loaded_inv, _, rfl, .step .start rfl⟩

/-! ### Memory -/

/-- Each width, at the lowest and at the highest aligned address. -/
theorem witness_StoreThenLoadReturnsValue :
    (∀ n ∈ [1, 2, 4, 8], aligned 0 n = true ∧ launch.ram 0 n = true) ∧
      aligned 0xFFFFFFFF 1 = true ∧ launch.ram 0xFFFFFFFF 1 = true ∧ aligned 0xFFFFFFFE 2 = true ∧ launch.ram 0xFFFFFFFE 2 = true ∧
      aligned 0xFFFFFFFC 4 = true ∧ launch.ram 0xFFFFFFFC 4 = true ∧ aligned 0xFFFFFFF8 8 = true ∧
      launch.ram 0xFFFFFFF8 8 = true := by decide
theorem witness_StoreWritesItsBytesLittleEndian :
    ∃ t, launch.memWrite 0xFFFFFFFC 4 0x11223344 = .next t ∧ t.byteAt 0xFFFFFFFC = some 0x44 := ⟨_, rfl, rfl⟩
theorem witness_StoreKeepsMemoryCanonical :
    Mem.wf dataLaunch.mem = true ∧ ∃ t, dataLaunch.memWrite 0xFE 2 0x1234 = .next t := ⟨rfl, _, rfl⟩
theorem witness_CanonicalMemoryIsDeterminedByItsBytes :
    Mem.wf dataLaunch.mem = true ∧ ∀ a, Mem.find a dataLaunch.mem = Mem.find a dataLaunch.mem := ⟨rfl, fun _ => rfl⟩
theorem witness_BadAccessesAreRefused :
    aligned 0x102 4 = false ∧ aligned 0x100 4 = true ∧ ({ launch with addressMap := [⟨0, 0x103⟩] } : State).ram 0x100 4 = false := by
  decide

/-! ### Contracts -/

/-- A frame of the least size. -/
def leastFrame : FrameOpen := ⟨4, 0, 0, by decide, by decide⟩

/-- SP one byte short of the frame's room, SP with exactly its room, and no limit. -/
theorem witness_AllocframeScramblesAndChecks :
    (({ launch with frameLimit := 0xF000 } : State).frameLimit ≠ 0 ∧
        ((launch.setR 29 0xF003).getR 29).toNat < (0xF000#32).toNat + leastFrame.size.toNat) ∧
      ((0xF000#32).toNat + leastFrame.size.toNat ≤ ((launch.setR 29 0xF004).getR 29).toNat ∧
        aligned ((launch.setR 29 0xF004).getR 29 - leastFrame.size + leastFrame.slot) 4 = true ∧
        launch.ram ((launch.setR 29 0xF004).getR 29 - leastFrame.size + leastFrame.slot) 4 = true ∧
        leastFrame.size.toNat ≤ ((launch.setR 29 0xF004).getR 29).toNat) ∧ launch.frameLimit = 0 := by decide
/-- The lowest and the highest pair, and an odd number. -/
theorem witness_VectorResultsAndStickySaturation :
    evenReg 0 = true ∧ evenReg 30 = true ∧ evenReg 2 = true ∧ evenReg 31 = false := ⟨rfl, rfl, rfl, rfl⟩
/-- The launch state with the inexact trap enabled and in effect. -/
def inexactTrapped : State := { launch with usr := 0x20300000, trapEnables := 0x10#5 }

/-- Inexact (condition 4) with its enable set and in effect, and with neither; a register and the highest pair. -/
theorem witness_FloatingPointRaisesOrSetsFlags :
    (usrIeee inexactTrapped.usr = true ∧
      ∃ k, k < 5 ∧ (0x10#5).getLsbD k = true ∧ inexactTrapped.trapEnables.getLsbD k = true ∧
        inexactTrapped.usr.getLsbD (25 + k) = true) ∧
      usrIeee launch.usr = true ∧ (GeneralOperand.pair 30).named = true ∧
      (∀ x ∈ [GeneralOperand.single 31, .pair 2], x.named = true) ∧
      ∀ k, k < 5 → (0x1F#5).getLsbD k = true → launch.trapEnables.getLsbD k = false ∧ launch.usr.getLsbD (25 + k) = false :=
  ⟨⟨by decide, 4, by decide⟩, by decide, by decide, by decide, by decide⟩
/-- Both transfers that write USR, mates that do not, each value FPCOPROC is asked for, and an odd pair as a source. -/
theorem witness_FloatingPointNeedsItsConditions :
    Dest.control .usr ∈ destsOf (.cdRs .usr 0) ∧ Dest.control .usr ∈ destsOf (.cddRss .usr 0) ∧
      (∀ i ∈ [Instr.rdPs 8 1, .cdRs .gp 0], Dest.control .usr ∉ destsOf i) ∧
      ({ launch with usr := 0x00200000 } : State).usr.extractLsb' 20 2 ≠ 3#2 ∧ launch.usr.extractLsb' 20 2 = 3#2 ∧
      evenReg 31 = false ∧ GeneralOperand.pair 31 ∈ [GeneralOperand.single 0, .pair 31] := by decide
theorem witness_CompareThenJumpFollowsEquality :
    (fun b : Byte => b == 0xFF) 0xFF = true ∧ (fun b : Byte => b == 0xFF) 0x00 = false := ⟨rfl, rfl⟩
/-- Each width at an address that both forms reach, and an odd-numbered pair. -/
theorem witness_LoadsReachTheirAddress :
    AddrMode.indirect 0 = .indirect 0 ∧ wideLaunch.getR 0 = wideLaunch.gp + 0 ∧
      wideLaunch.memRead (wideLaunch.getR 0) 1 = .next 0x44 ∧ wideLaunch.memRead (wideLaunch.getR 0) 2 = .next 0x3344 ∧
      wideLaunch.memRead (wideLaunch.getR 0) 4 = .next 0x11223344 ∧
      wideLaunch.memRead (wideLaunch.getR 0) 8 = .next 0x5566778811223344 ∧ evenReg 30 = true ∧ evenReg 31 = false :=
  ⟨rfl, rfl, rfl, rfl, rfl, rfl, rfl, rfl⟩
/-- What the spec leaves open of a load, as a test needs it. -/
def plainOpen : LoadOpen := ⟨false, fun a => a, fun i => i.zeroExtend 32, fun _ => 0, 0⟩

/-- The pointer apart from the destination, the same, and the high half of a destination pair. -/
theorem witness_AutoIncrementAddsModifier :
    (2 : Reg) ≠ 0 ∧ dataLaunch.getR 0 = (if plainOpen.incrementFirst then dataLaunch.getR 0 + dataLaunch.m1 else dataLaunch.getR 0) ∧
      dataLaunch.memRead (loadAddress (.autoIncrement 0 1) plainOpen dataLaunch) 4 = .next 0x11223344 ∧
      dataLaunch.memRead (loadAddress (.bitReversed 0 1) plainOpen dataLaunch) 4 = .next 0x11223344 ∧
      (0 : Reg) = 0 ∧ oddOf 2 = 3 := ⟨by decide, rfl, rfl, rfl, rfl, rfl⟩
/-- A circular state: a buffer of 8 bytes at 00000100, I = 4, bits 27:24 clear. -/
def circularLaunch : State := { dataLaunch with m0 := 0x00080008, cs0 := 0x100 }
/-- The destination apart from the pointer, and the source's own R2 = memw(R2++#8:circ(M0)); bits 27:24 set; and clear, with a sum inside the buffer (I = 4) and one just outside it (immediate 8). -/
theorem witness_CircularLoadStaysInItsBuffer :
    (2 : Reg) ≠ 0 ∧ (2 : Reg) = 2 ∧ oddOf 2 = 3 ∧ (0x01000000#32).extractLsb' 24 4 ≠ 0#4 ∧ circularLaunch.m0.extractLsb' 24 4 = 0#4 ∧
      circularLaunch.m0.extractLsb' 0 17 ≠ 0#17 ∧
      plainOpen.iStep (circularLaunch.m0.extractLsb' 28 4 ++ circularLaunch.m0.extractLsb' 17 7) = 4 ∧
      (circularLaunch.getR 0 + 4 - circularLaunch.cs0).toNat < (circularLaunch.m0.extractLsb' 0 17).toNat ∧
      ¬ (circularLaunch.getR 0 + 8 - circularLaunch.cs0).toNat < (circularLaunch.m0.extractLsb' 0 17).toNat ∧
      circularLaunch.memRead (loadAddress (.circularReg 0 0) plainOpen circularLaunch) 4 = .next 0x11223344 ∧
      circularLaunch.memRead (loadAddress (.circularImm 0 8 0) plainOpen circularLaunch) 4 = .next 0x11223344 :=
  ⟨by decide, rfl, rfl, by decide, by decide, by decide, by decide, by decide, by decide, rfl, rfl⟩

end Sys2Proof.Tests
end

section
/-! SUPPORT. The predicates as one word (R51), and UGP apart from every other register (R53). -/

namespace Sys2Proof.Machine

/-! ### The predicate quadruple written -/

/-- After a write of P3:0, predicate p is byte p of the source, the least significant byte first (R51). -/
theorem State.getP_setPreds (s : State) (v : Word) (p : PReg) : (s.setPreds v).getP p = v.extractLsb' (8 * p.val) 8 := by
  fin_cases p <;> simp [State.setPreds, State.getP_setP]

/-! ### UGP replaced: every operation on another register commutes with it -/

/-- The state with another value in UGP: what noninterference compares a state with. -/
def State.setUgp (s : State) (v : Word) : State := { s with ugp := v }

theorem State.retire_setUgp (s : State) (v : Word) (n : Nat) : (s.setUgp v).retire n = (s.retire n).setUgp v := rfl

theorem State.setR_setUgp (s : State) (v : Word) (r : Reg) (w : Word) : (s.setUgp v).setR r w = (s.setR r w).setUgp v := rfl

theorem State.setRR_setUgp (s : State) (v : Word) (r : Reg) (w : DWord) :
    (s.setUgp v).setRR r w = (s.setRR r w).setUgp v := rfl

/-- The read table looks at UGP in the row of C10 only (R125). -/
theorem State.readC_setUgp (s : State) (v : Word) (k : Nat) {c : CReg} (hc : c ≠ .ugp) :
    (s.setUgp v).readC k c = s.readC k c := by
  cases c
  case ugp => exact absurd rfl hc
  all_goals rfl

theorem State.noteRead_setUgp (acc start : State) (v w : Word) (k : Nat) (c : CReg) :
    (acc.setUgp w).noteRead (start.setUgp v) k c = (acc.noteRead start k c).setUgp w := by
  by_cases hc : c = .usr
  · subst hc
    rfl
  · simp only [State.noteRead, if_neg hc]

/-- What a write that answers a state does to UGP: the whole source (R126), or nothing. -/
theorem State.writeC_ugp {s t : State} {c : CReg} {v : Word} (h : s.writeC c v = .next t) :
    (c = .ugp ∧ t.ugp = v) ∨ (c ≠ .ugp ∧ t.ugp = s.ugp) := by
  cases c
  case usr | pktcountLo | pktcountHi =>
    simp only [State.writeC] at h
    split at h <;> cases h
    simp
  all_goals cases h <;> simp

/-- A write of another register does the same whatever UGP holds, and carries that value along (R126). -/
theorem State.writeC_setUgp {s t : State} {c : CReg} {w : Word} (hc : c ≠ .ugp) (h : s.writeC c w = .next t) (v : Word) :
    (s.setUgp v).writeC c w = .next (t.setUgp v) := by
  cases c
  case ugp => exact absurd rfl hc
  case usr =>
    simp only [State.writeC] at h
    split at h <;> cases h
    exact if_neg ‹_›
  case pktcountLo | pktcountHi =>
    simp only [State.writeC] at h
    split at h <;> cases h
    exact if_pos ‹_›
  all_goals cases h <;> rfl

/-- UGP has an even number, so it is never the second register of a control pair (R23). -/
theorem oddOfC_ne_ugp {c : CReg} (hc : evenCReg c = true) : oddOfC c ≠ .ugp := by
  revert hc
  cases c <;> decide

/-! ### A control register copied to a general register -/

/-- `Rd = Cs` completes where the read of Cs answers, and Rd is what it answers (R120). -/
theorem exec_rdCs_getR {s : State} {c : CReg} {x : Word} (h : s.readC 0 c = .next x) (d : Reg) :
    ∃ t, exec (.rdCs d c) s = .next t ∧ t.getR d = x :=
  ⟨_, moveRdCs_eq_next.mpr ⟨x, h, rfl⟩, State.getR_setR_self _ d x⟩

/-! ### An instruction that does not name UGP -/

/-- At any place of a packet, an instruction that does not name UGP leaves it as it stands in the state to come, and takes the
same effect whatever UGP holds at the packet's start and in the state to come. -/
theorem applySlot_setUgp {k : Nat} {i : Instr} {s acc t : State} (hi : Claims.namesUgp i = false)
    (h : applySlot k i s acc = .next t) (v w : Word) :
    t.ugp = acc.ugp ∧ applySlot k i (s.setUgp v) (acc.setUgp w) = .next (t.setUgp w) := by
  cases i with
  | rdCs d c =>
    have hc : c ≠ .ugp := by simpa [Claims.namesUgp] using hi
    obtain ⟨x, hx, rfl⟩ := moveRdCs_eq_next.mp h
    refine ⟨by simp, moveRdCs_eq_next.mpr ⟨x, ?_, ?_⟩⟩
    · rw [State.readC_setUgp s v k hc, hx]
    · rw [State.noteRead_setUgp, State.setR_setUgp]
  | cdRs c r =>
    have hc : c ≠ .ugp := by simpa [Claims.namesUgp] using hi
    have hw : acc.writeC c (s.getR r) = .next t := moveCdRs_eq_next.mp h
    have hkeep : t.ugp = acc.ugp := by simpa [hc] using State.writeC_ugp hw
    exact ⟨hkeep, State.writeC_setUgp hc hw w⟩
  | rddCss d c =>
    have hc : c ≠ .ugp := by simpa [Claims.namesUgp] using hi
    obtain ⟨hd, heven, high, low, hhigh, hlow, rfl⟩ := moveRddCss_eq_next.mp h
    refine ⟨by simp, moveRddCss_eq_next.mpr ⟨hd, heven, high, low, ?_, ?_, ?_⟩⟩
    · rw [State.readC_setUgp s v k (oddOfC_ne_ugp heven), hhigh]
    · rw [State.readC_setUgp s v k hc, hlow]
    · rw [State.noteRead_setUgp, State.setRR_setUgp]
  | cddRss c r =>
    have hc : c ≠ .ugp := by simpa [Claims.namesUgp] using hi
    obtain ⟨heven, hr, u, hlo, hhi⟩ := moveCddRss_eq_next.mp h
    have hodd : oddOfC c ≠ .ugp := oddOfC_ne_ugp heven
    have hu : u.ugp = acc.ugp := by simpa [hc] using State.writeC_ugp hlo
    have ht : t.ugp = u.ugp := by simpa [hodd] using State.writeC_ugp hhi
    exact ⟨ht.trans hu, moveCddRss_eq_next.mpr
      ⟨heven, hr, u.setUgp w, State.writeC_setUgp hc hlo w, State.writeC_setUgp hodd hhi w⟩⟩
  | rdPs d p =>
    obtain rfl := moveRdPs_eq_next.mp h
    exact ⟨by simp, moveRdPs_eq_next.mpr rfl⟩

/-- An instruction that does not name UGP, as a packet of its own, neither reads nor writes it (R53). -/
theorem exec_setUgp {i : Instr} {s t : State} (hi : Claims.namesUgp i = false) (h : exec i s = .next t) (v : Word) :
    t.ugp = s.ugp ∧ exec i (s.setUgp v) = .next (t.setUgp v) := by
  rw [exec_eq_applySlot] at h ⊢
  rw [State.retire_setUgp]
  exact applySlot_setUgp hi h v v

end Sys2Proof.Machine
end

section
/-! The statements of 10_state.md: UGP (R53) and the predicate quadruple (R51). -/

namespace Sys2Proof.Proofs

open Sys2Proof.Machine Sys2Proof.Claims

/-- Settles O30: the two transfers by the rows of UGP in the read and write tables, every other instruction by the lemma that its
effect commutes with a replacement of UGP. -/
theorem userGeneralPointerIsTouchedByTransfersOnly : Obligations.UserGeneralPointerIsTouchedByTransfersOnly := by
  intro s t d r i v
  have hread : ∃ u, exec (.rdCs d .ugp) s = .next u ∧ u.getR d = s.ugp := exec_rdCs_getR rfl d
  have hwrite : ∃ u, exec (.cdRs .ugp r) s = .next u ∧ u.ugp = s.getR r := ⟨(s.retire 1).setUgp (s.getR r), rfl, rfl⟩
  exact ⟨hread, hwrite, fun hi h => exec_setUgp hi h v⟩

/-- Settles O18: the write by what each predicate is after a write of P3:0, the read by the row of C4 in the read table. -/
theorem predicateQuadrupleIsOneWord : Obligations.PredicateQuadrupleIsOneWord := by
  intro d r s
  constructor
  · exact ⟨(s.retire 1).setPreds (s.getR r), rfl, State.getP_setPreds _ _ 3, State.getP_setPreds _ _ 2,
      State.getP_setPreds _ _ 1, State.getP_setPreds _ _ 0⟩
  · exact exec_rdCs_getR rfl d

end Sys2Proof.Proofs
end

section
/-! SUPPORT. What a packet's instructions do to the state that is to come: the effect of one instruction, of several, and of a
packet of them (D18). -/

namespace Sys2Proof.Machine

open Sys2Proof.Claims

/-! ### Two masked writes in turn (R44, R54) -/

/-- A masked write after a masked write keeps the bits outside the mask of what was there first. -/
theorem masked_write_twice {mask keep : Word} (h : mask &&& keep = 0#32) (old v w : Word) :
    (w &&& mask) ||| (((v &&& mask) ||| (old &&& keep)) &&& keep) = (w &&& mask) ||| (old &&& keep) := by
  have hdrop : ((v &&& mask) ||| (old &&& keep)) &&& keep = old &&& keep := by
    rw [BitVec.and_comm, BitVec.and_or_distrib_left, BitVec.and_comm keep, BitVec.and_assoc, h, BitVec.and_zero,
      BitVec.zero_or, BitVec.and_comm keep, BitVec.and_assoc, BitVec.and_self]
  rw [hdrop]

/-- Two transfers to USR in turn leave what the second alone would (R44). -/
theorem usrWrite_usrWrite (old v w : Word) : usrWrite (usrWrite old v) w = usrWrite old w :=
  masked_write_twice (by decide) old v w

/-! ### Effects in turn -/

theorem SlotEffect.refl (acc : State) : SlotEffect [] acc acc :=
  ⟨fun _ _ => rfl, .inl rfl, .inl rfl, id, rfl, rfl, rfl, rfl, rfl, rfl, rfl, rfl, rfl, rfl, rfl, rfl⟩

theorem SlotEffect.trans {xs ys : List Dest} {a b c : State} (h : SlotEffect xs a b) (h' : SlotEffect ys b c) :
    SlotEffect (xs ++ ys) a c := by
  refine ⟨fun r hr => ?_, ?_, ?_, h'.prefetch ∘ h.prefetch, ?_⟩
  · rw [List.mem_append, not_or] at hr
    rw [h'.generals r hr.2, h.generals r hr.1]
  · rcases h'.usr with e' | ⟨w, hw, e'⟩
    · rw [e']
      exact h.usr
    · rcases h.usr with e | ⟨v, -, e⟩
      · exact .inr ⟨w, hw, by rw [e', e]⟩
      · exact .inr ⟨w, hw, by rw [e', e, usrWrite_usrWrite]⟩
  · rcases h'.gp with e' | ⟨w, e'⟩
    · rw [e']
      exact h.gp
    · rcases h.gp with e | ⟨v, e⟩
      · exact .inr ⟨w, by rw [e', e]⟩
      · exact .inr ⟨w, by rw [e', e, masked_write_twice (by decide)]⟩
  · have o := h.owned
    have o' := h'.owned
    simp_all

/-- A general register written, as an effect. -/
theorem setR_effect (acc : State) (d : Reg) (v : Word) : SlotEffect [.general d] acc (acc.setR d v) := by
  refine ⟨fun r hr => State.getR_setR_of_ne acc ?_ v, .inl rfl, .inl rfl, id, by simp⟩
  rintro rfl
  exact hr (by simp)

/-- One instruction of a packet changes no register but its destinations, and nothing that the packet's start owns. -/
theorem applySlot_effect {k : Nat} {i : Instr} {s acc t : State} (h : applySlot k i s acc = .next t) :
    SlotEffect (destsOf i) acc t := by
  cases i with
  | rdCs d c =>
    obtain ⟨v, -, rfl⟩ := moveRdCs_eq_next.mp h
    exact noteRead_setR_effect acc s k c d v
  | cdRs c r => exact writeC_effect (moveCdRs_eq_next.mp h)
  | rddCss d c =>
    obtain ⟨-, -, hi, lo, -, -, rfl⟩ := moveRddCss_eq_next.mp h
    exact (noteRead_setR_effect acc s k c d _).trans (setR_effect _ (oddOf d) _)
  | cddRss c r =>
    obtain ⟨-, -, u, hlo, hhi⟩ := moveCddRss_eq_next.mp h
    exact (writeC_effect hlo).trans (writeC_effect hhi)
  | rdPs d p =>
    obtain rfl := moveRdPs_eq_next.mp h
    exact setR_effect acc d _

/-- The instructions of a packet, one after the other. -/
theorem runSlots_effect {k : Nat} {is : List Instr} {s acc t : State} (h : runSlots k is s acc = .next t) :
    SlotEffect (is.flatMap destsOf) acc t := by
  induction is generalizing k acc with
  | nil =>
    cases h
    exact SlotEffect.refl _
  | cons i is ih =>
    obtain ⟨u, hu, hrest⟩ := runSlots_cons_eq_next.mp h
    exact (applySlot_effect hu).trans (ih hrest)

/-! ### The control registers and the packet counter -/

/-- The predicates as one word are the same where the predicates are. -/
theorem stored_p30_congr {s t : State} (h : t.preds = s.preds) : stored t .p30 = stored s .p30 := by
  simp only [stored, State.getP, h]

/-- A write of a control register leaves every other one as it is stored (R126). -/
theorem State.writeC_stored_of_ne {s t : State} {c x : CReg} {v : Word} (h : s.writeC c v = .next t) (hx : x ≠ c) :
    stored t x = stored s x := by
  cases c
  case usr | pktcountLo | pktcountHi =>
    simp only [State.writeC] at h
    split at h <;> cases h
    cases x <;> first | exact absurd rfl hx | exact stored_p30_congr rfl | rfl
  case p30 =>
    cases h
    cases x <;> first | exact absurd rfl hx | simp [stored]
  all_goals cases h <;> cases x <;> first | exact absurd rfl hx | exact stored_p30_congr rfl | rfl

/-- A write of a control register other than its halves leaves PKTCOUNT as it was. -/
theorem State.writeC_pktcount {s t : State} {c : CReg} {v : Word} (h : s.writeC c v = .next t) (hlo : c ≠ .pktcountLo)
    (hhi : c ≠ .pktcountHi) : t.pktcount = s.pktcount := by
  cases c
  case pktcountLo => exact absurd rfl hlo
  case pktcountHi => exact absurd rfl hhi
  case usr =>
    simp only [State.writeC] at h
    split at h <;> cases h
    rfl
  case p30 =>
    cases h
    exact State.setPreds_pktcount s v
  all_goals cases h <;> rfl

/-- What one instruction of a packet leaves as it was: every control register it does not name, and PKTCOUNT where it names
neither half. -/
structure ControlEffect (dests : List Dest) (acc t : State) : Prop where
  controls : ∀ c, Dest.control c ∉ dests → stored t c = stored acc c
  pktcount : Dest.control .pktcountLo ∉ dests → Dest.control .pktcountHi ∉ dests → t.pktcount = acc.pktcount

theorem ControlEffect.trans {xs ys : List Dest} {a b c : State} (h : ControlEffect xs a b) (h' : ControlEffect ys b c) :
    ControlEffect (xs ++ ys) a c := by
  constructor
  · intro x hx
    rw [List.mem_append, not_or] at hx
    rw [h'.controls x hx.2, h.controls x hx.1]
  · intro hlo hhi
    rw [List.mem_append, not_or] at hlo hhi
    rw [h'.pktcount hlo.2 hhi.2, h.pktcount hlo.1 hhi.1]

/-- A control register write as an effect on the control registers. -/
theorem writeC_controlEffect {s t : State} {c : CReg} {v : Word} (h : s.writeC c v = .next t) :
    ControlEffect [.control c] s t := by
  refine ⟨fun x hx => State.writeC_stored_of_ne h ?_, fun hlo hhi => State.writeC_pktcount h ?_ ?_⟩
  · rintro rfl
    exact hx (by simp)
  · rintro rfl
    exact hlo (by simp)
  · rintro rfl
    exact hhi (by simp)

theorem stored_setR (s : State) (r : Reg) (v : Word) (c : CReg) : stored (s.setR r v) c = stored s c := by
  cases c
  case p30 => exact stored_p30_congr rfl
  all_goals rfl

theorem stored_noteRead (s start : State) (k : Nat) (x c : CReg) : stored (s.noteRead start k x) c = stored s c := by
  cases c <;> simp [stored, State.getP]

/-- One instruction of a packet changes no control register that it does not name. -/
theorem applySlot_controlEffect {k : Nat} {i : Instr} {s acc t : State} (h : applySlot k i s acc = .next t) :
    ControlEffect (destsOf i) acc t := by
  cases i with
  | rdCs d c =>
    obtain ⟨v, -, rfl⟩ := moveRdCs_eq_next.mp h
    exact ⟨fun x _ => by rw [stored_setR, stored_noteRead], fun _ _ => by simp⟩
  | cdRs c r => exact writeC_controlEffect (moveCdRs_eq_next.mp h)
  | rddCss d c =>
    obtain ⟨-, -, hi, lo, -, -, rfl⟩ := moveRddCss_eq_next.mp h
    exact ⟨fun x _ => by rw [State.setRR, stored_setR, stored_setR, stored_noteRead], fun _ _ => by simp⟩
  | cddRss c r =>
    obtain ⟨-, -, u, hlo, hhi⟩ := moveCddRss_eq_next.mp h
    exact (writeC_controlEffect hlo).trans (writeC_controlEffect hhi)
  | rdPs d p =>
    obtain rfl := moveRdPs_eq_next.mp h
    exact ⟨fun x _ => stored_setR acc d _ x, fun _ _ => rfl⟩

/-- The instructions of a packet change no control register that none of them names. -/
theorem runSlots_controlEffect {k : Nat} {is : List Instr} {s acc t : State} (h : runSlots k is s acc = .next t) :
    ControlEffect (is.flatMap destsOf) acc t := by
  induction is generalizing k acc with
  | nil =>
    cases h
    exact ⟨fun _ _ => rfl, fun _ _ => rfl⟩
  | cons i is ih =>
    obtain ⟨u, hu, hrest⟩ := runSlots_cons_eq_next.mp h
    exact (applySlot_controlEffect hu).trans (ih hrest)

/-! ### Destinations named once -/

theorem distinct_iff_nodup (l : List Dest) : distinct l = true ↔ l.Nodup := by
  induction l with
  | nil => simp [distinct]
  | cons d rest ih => simp [distinct, ih]

/-- No instruction names one register twice: the halves of a pair are two registers. -/
theorem distinct_destsOf (i : Instr) : distinct (destsOf i) = true := by
  cases i with
  | rddCss d c => simp [distinct, destsOf, Ne.symm (oddOf_ne d)]
  | cddRss c r => simp [distinct, destsOf, Ne.symm (oddOfC_ne c)]
  | rdCs | cdRs | rdPs => rfl

/-! ### Packets -/

/-- One instruction alone in its packet means what it means as a packet (D18(a), D18(b)). -/
theorem execPacket_singleton (i : Instr) (s : State) : execPacket [i] s = exec i s := by
  have hd : distinct ([i].flatMap destsOf) = true := by simpa using distinct_destsOf i
  have hrun : execPacket [i] s = runSlots 0 [i] s (s.retire 1) := by
    simp only [execPacket, hd, List.isEmpty_cons, Bool.false_eq_true, if_false, if_true, List.length_singleton]
  rw [hrun, exec_eq_applySlot, runSlots]
  cases applySlot 0 i s (s.retire 1) <;> rfl

/-- A packet of any number of instructions is executed as D18(b) says. -/
theorem runPacket_eq_execPacket (is : List Instr) (s : State) : runPacket is s = execPacket is s := by
  match is with
  | [] => rfl
  | [i] => exact (execPacket_singleton i s).symm
  | _ :: _ :: _ => rfl

/-- All that a step can do when it answers a state, as a packet. -/
theorem step_eq_next_packet {s t : State} :
    step s = .next t ↔
      ∃ p is, s.fetch = .next p ∧ decodePacket p.bytes = .ok is ∧ execPacket is { s with nextPc := p.next } = .next t := by
  simp only [step_eq_next, runPacket_eq_execPacket]

/-- What a packet that completes does, its completion included. -/
theorem execPacket_effect {is : List Instr} {s t : State} (h : execPacket is s = .next t) :
    SlotEffect (is.flatMap destsOf) (s.retire is.length) t :=
  runSlots_effect (execPacket_eq_next.mp h).2.2

theorem execPacket_controlEffect {is : List Instr} {s t : State} (h : execPacket is s = .next t) :
    ControlEffect (is.flatMap destsOf) (s.retire is.length) t :=
  runSlots_controlEffect (execPacket_eq_next.mp h).2.2

/-- What a step that completes does, seen from the state in which the fetch recorded the packet's successor. -/
theorem step_effect {s t : State} (h : step s = .next t) :
    ∃ (next : Word) (is : List Instr),
      SlotEffect (is.flatMap destsOf) (State.retire { s with nextPc := next } is.length) t := by
  obtain ⟨p, is, -, -, hrun⟩ := step_eq_next_packet.mp h
  exact ⟨p.next, is, execPacket_effect hrun⟩

/-! ### The control registers through a completion, a fetch and a store -/

theorem stored_retire (s : State) (n : Nat) (c : CReg) : stored (s.retire n) c = stored s c := by
  cases c
  case p30 => exact stored_p30_congr rfl
  all_goals rfl

theorem stored_nextPc (s : State) (a : Word) (c : CReg) : stored { s with nextPc := a } c = stored s c := by
  cases c
  case p30 => exact stored_p30_congr rfl
  all_goals rfl

theorem stored_mem (s : State) (m : Mem) (c : CReg) : stored { s with mem := m } c = stored s c := by
  cases c
  case p30 => exact stored_p30_congr rfl
  all_goals rfl

end Sys2Proof.Machine
end

section
/-! SUPPORT. What a masked write keeps, what a packet's instructions leave as it was, and what every step keeps. -/

namespace Sys2Proof.Machine

open Sys2Proof.Claims

/-! ### Fields under a masked write (R44, R54) -/

/-- A field inside the mask receives the source's bits. -/
theorem extract_masked_write_source {mask keep : Word} {i n : Nat} (hm : mask.extractLsb' i n = BitVec.allOnes n)
    (hk : keep.extractLsb' i n = 0#n) (old v : Word) :
    ((v &&& mask) ||| (old &&& keep)).extractLsb' i n = v.extractLsb' i n := by
  simp [BitVec.extractLsb'_or, BitVec.extractLsb'_and, hm, hk]

/-- A field outside the mask keeps its bits. -/
theorem extract_masked_write_kept {mask keep : Word} {i n : Nat} (hm : mask.extractLsb' i n = 0#n)
    (hk : keep.extractLsb' i n = BitVec.allOnes n) (old v : Word) :
    ((v &&& mask) ||| (old &&& keep)).extractLsb' i n = old.extractLsb' i n := by
  simp [BitVec.extractLsb'_or, BitVec.extractLsb'_and, hm, hk]

/-- Bits outside the mask are kept, taken together. -/
theorem and_masked_write_kept {mask keep bits : Word} (hm : mask &&& bits = 0#32) (hk : keep &&& bits = bits) (old v : Word) :
    ((v &&& mask) ||| (old &&& keep)) &&& bits = old &&& bits := by
  rw [BitVec.and_comm, BitVec.and_or_distrib_left, BitVec.and_comm bits, BitVec.and_assoc, hm, BitVec.and_zero,
    BitVec.zero_or, BitVec.and_comm bits, BitVec.and_assoc, hk]

theorem hfiReserved_usrWrite (old v : Word) : hfiReserved (usrWrite old v) = hfiReserved v := by
  have h : (usrWrite old v).extractLsb' 15 2 = v.extractLsb' 15 2 := extract_masked_write_source (by decide) (by decide) old v
  simp only [hfiReserved, h]

/-! ### What an effect keeps -/

/-- The fields of USR that no transfer writes: those marked R (R44). -/
theorem SlotEffect.usr_and_kept {dests : List Dest} {acc t : State} (h : SlotEffect dests acc t) {bits : Word}
    (hm : usrWriteMask &&& bits = 0#32) (hk : usrKeepMask &&& bits = bits) : t.usr &&& bits = acc.usr &&& bits := by
  rcases h.usr with e | ⟨v, -, e⟩
  · rw [e]
  · rw [e]
    exact and_masked_write_kept hm hk acc.usr v

theorem SlotEffect.fpcoproc {dests : List Dest} {acc t : State} (h : SlotEffect dests acc t) :
    t.usr.extractLsb' 20 2 = acc.usr.extractLsb' 20 2 := by
  rcases h.usr with e | ⟨v, -, e⟩
  · rw [e]
  · rw [e]
    exact extract_masked_write_kept (by decide) (by decide) acc.usr v

theorem SlotEffect.gp_low {dests : List Dest} {acc t : State} (h : SlotEffect dests acc t) :
    t.gp.extractLsb' 0 6 = acc.gp.extractLsb' 0 6 := by
  rcases h.gp with e | ⟨v, e⟩
  · rw [e]
  · rw [e]
    exact extract_masked_write_kept (by decide) (by decide) acc.gp v

/-- The reserved value of HFI does not come from a transfer (R37, D27). -/
theorem SlotEffect.hfi {dests : List Dest} {acc t : State} (h : SlotEffect dests acc t) (ha : hfiReserved acc.usr = false) :
    hfiReserved t.usr = false := by
  rcases h.usr with e | ⟨v, hv, e⟩
  · rw [e, ha]
  · rw [e, hfiReserved_usrWrite, hv]

theorem SlotEffect.mem {dests : List Dest} {acc t : State} (h : SlotEffect dests acc t) : t.mem = acc.mem := by
  obtain ⟨-, -, -, -, -, -, -, -, hmem, -⟩ := h.owned
  exact hmem

theorem SlotEffect.pc {dests : List Dest} {acc t : State} (h : SlotEffect dests acc t) : t.pc = acc.pc := h.owned.1

/-! ### What every step keeps -/

/-- A step keeps the machine well-formed (D6, D7, D26, D27). -/
theorem step_keeps_inv {s t : State} (hs : s.Inv) (h : step s = .next t) : t.Inv := by
  obtain ⟨next, is, e⟩ := step_effect h
  exact ⟨e.mem ▸ hs.memory, e.hfi hs.hfi, (e.usr_and_kept (by decide) (by decide)).trans hs.reserved,
    e.fpcoproc.trans hs.fpcoproc, e.gp_low.trans hs.gpReserved⟩

/-- A step changes nothing that is constant during a run (D6, D10, D15, D16). -/
theorem step_unchangeable {s t : State} (h : step s = .next t) : Unchangeable s t := by
  obtain ⟨next, is, e⟩ := step_effect h
  obtain ⟨-, -, htrap, hup, hpkt, htim, hpmu, hmode, hmem, hmap, halign, htext⟩ := e.owned
  exact ⟨hmode, hup, hpkt, htim, hpmu, hmap, halign, htext, htrap, fun a => congrArg (Mem.find a) hmem,
    e.usr_and_kept (by decide) (by decide), e.gp_low⟩

theorem Unchangeable.refl (s : State) : Unchangeable s s :=
  ⟨rfl, rfl, rfl, rfl, rfl, rfl, rfl, rfl, rfl, fun _ => rfl, rfl, rfl⟩

theorem Unchangeable.trans {a b c : State} (h : Unchangeable a b) (h' : Unchangeable b c) : Unchangeable a c :=
  ⟨h'.mode.trans h.mode, h'.upcycleAccess.trans h.upcycleAccess, h'.pktcountAccess.trans h.pktcountAccess,
    h'.utimerAccess.trans h.utimerAccess, h'.upmucntAccess.trans h.upmucntAccess, h'.addressMap.trans h.addressMap,
    h'.pcAlignment.trans h.pcAlignment, h'.text.trans h.text, h'.trapEnables.trans h.trapEnables,
    fun a => (h'.memory a).trans (h.memory a), h'.usrKept.trans h.usrKept, h'.gpKept.trans h.gpKept⟩

/-- A prefetch that may no longer be in progress stays so: only `l2fetch` starts one (D20). -/
theorem step_prefetch_closed {s t : State} (hs : s.prefetchOpen = false) (h : step s = .next t) : t.prefetchOpen = false := by
  obtain ⟨next, is, e⟩ := step_effect h
  exact e.prefetch hs

/-! ### Steps and faults -/

theorem runSlots_no_fault (k : Nat) (is : List Instr) (s acc : State) (f : Fault) : runSlots k is s acc ≠ .fault f := by
  induction is generalizing k acc with
  | nil => simp [runSlots]
  | cons i is ih =>
    intro h
    rcases andThen_eq_fault.mp h with h | ⟨u, -, h⟩
    · exact applySlot_no_fault k i s acc f h
    · exact ih (k + 1) u h

theorem execPacket_no_fault (is : List Instr) (s : State) (f : Fault) : execPacket is s ≠ .fault f := by
  unfold execPacket
  split
  · simp
  · split
    · exact runSlots_no_fault 0 is s _ f
    · simp

theorem State.fetch_no_fault (s : State) (f : Fault) : s.fetch ≠ .fault f := by
  unfold State.fetch
  split
  · split
    · simp
    · split <;> simp
  · simp

theorem runFetched_no_fault (s : State) (p : TextPacket) (f : Fault) : runFetched s p ≠ .fault f := by
  unfold runFetched
  split
  · simp
  · rw [runPacket_eq_execPacket]
    exact execPacket_no_fault _ _ f

theorem step_no_fault (s : State) : s.NoFault := by
  intro f h
  rcases andThen_eq_fault.mp h with h | ⟨p, -, h⟩
  · exact State.fetch_no_fault s f h
  · exact runFetched_no_fault s p f h

/-! ### One instruction among the others of its packet -/

/-- What an instruction of a packet leaves in its destinations is there when the packet completes, since no other one names
them (D18(b)). -/
theorem runSlots_mem {k : Nat} {is : List Instr} {s acc t : State} {i : Instr} (hd : (is.flatMap destsOf).Nodup)
    (h : runSlots k is s acc = .next t) (hi : i ∈ is) :
    ∃ (n : Nat) (before u : State), applySlot n i s before = .next u ∧
      (∀ r, Dest.general r ∈ destsOf i → t.getR r = u.getR r) ∧
      ∀ c, Dest.control c ∈ destsOf i → stored t c = stored u c := by
  induction is generalizing k acc with
  | nil => cases hi
  | cons j is ih =>
    obtain ⟨u, hu, hrest⟩ := runSlots_cons_eq_next.mp h
    rw [List.flatMap_cons, List.nodup_append] at hd
    obtain ⟨-, hd, hdisjoint⟩ := hd
    rcases List.mem_cons.mp hi with rfl | hi
    · have hout : ∀ x ∈ destsOf i, x ∉ is.flatMap destsOf := fun x hx hmem => hdisjoint x hx x hmem rfl
      exact ⟨k, acc, u, hu, fun r hr => (runSlots_effect hrest).generals r (hout _ hr),
        fun c hc => (runSlots_controlEffect hrest).controls c (hout _ hc)⟩
    · exact ih hd hrest hi

/-- The same of a packet. -/
theorem execPacket_mem {is : List Instr} {s t : State} {i : Instr} (h : execPacket is s = .next t) (hi : i ∈ is) :
    ∃ (n : Nat) (before u : State), applySlot n i s before = .next u ∧
      (∀ r, Dest.general r ∈ destsOf i → t.getR r = u.getR r) ∧
      ∀ c, Dest.control c ∈ destsOf i → stored t c = stored u c := by
  obtain ⟨-, hd, hrun⟩ := execPacket_eq_next.mp h
  exact runSlots_mem ((distinct_iff_nodup _).mp hd) hrun hi

/-! ### Plain control registers (R125, R126) -/

/-- A plain control register reads as it is stored. -/
theorem State.readC_plain (s : State) (k : Nat) {c : CReg} (hc : c ∈ plainControls) : s.readC k c = .next (stored s c) := by
  simp only [plainControls, List.mem_cons, List.not_mem_nil, or_false] at hc
  rcases hc with rfl | rfl | rfl | rfl | rfl | rfl | rfl | rfl | rfl | rfl | rfl | rfl <;> rfl

/-- The four bytes of a word put together are the word. -/
theorem append_extract_bytes (v : Word) :
    v.extractLsb' 24 8 ++ v.extractLsb' 16 8 ++ v.extractLsb' 8 8 ++ v.extractLsb' 0 8 = v := by
  rw [BitVec.extractLsb'_append_extractLsb'_eq_extractLsb' (by omega),
    BitVec.extractLsb'_append_extractLsb'_eq_extractLsb' (by omega),
    BitVec.extractLsb'_append_extractLsb'_eq_extractLsb' (by omega)]
  exact BitVec.extractLsb'_eq_self

/-- The predicates put together after a write of P3:0 are the word written (R51). -/
theorem stored_setPreds (s : State) (v : Word) : stored (s.setPreds v) .p30 = v := by
  simp only [stored, State.getP_setPreds]
  exact append_extract_bytes v

/-- A write of a plain control register always answers and replaces all of it. -/
theorem State.writeC_plain (s : State) {c : CReg} (hc : c ∈ plainControls) (v : Word) :
    ∃ t, s.writeC c v = .next t ∧ stored t c = v := by
  by_cases hp : c = .p30
  · subst hp
    exact ⟨s.setPreds v, rfl, stored_setPreds s v⟩
  · simp only [plainControls, List.mem_cons, List.not_mem_nil, or_false] at hc
    rcases hc with rfl | rfl | rfl | rfl | rfl | rfl | rfl | rfl | rfl | rfl | rfl | rfl <;>
      first | exact absurd rfl hp | exact ⟨_, rfl, rfl⟩

/-! ### The packet counter -/

/-- The model's counting rule, mode by mode (R39, R59). -/
theorem counting_iff (s : State) :
    s.counting = true ↔
      (s.mode = .user ∧ s.usr.getLsbD 10) ∨ (s.mode = .guest ∧ s.usr.getLsbD 11) ∨
        (s.mode = .monitor ∧ s.usr.getLsbD 12) := by
  unfold State.counting
  cases s.mode <;> simp

theorem counted_iff {s t : State} : Counted s t ↔ t.pktcount = s.pktcount + (if s.counting then 1 else 0) := by
  simp only [Counted, counting_iff]

end Sys2Proof.Machine
end

section
/-! The statements about packets and steps. -/

namespace Sys2Proof.Proofs

open Sys2Proof.Machine Sys2Proof.Claims

/-- Settles O12, by the effects of the packet's instructions on the completed state. -/
theorem stepFrame : Obligations.StepFrame := by
  intro s t p is hf hdec h
  obtain ⟨p', is', hf', hdec', hrun⟩ := step_eq_next_packet.mp h
  obtain rfl : p = p' := by simpa [hf] using hf'
  obtain rfl : is = is' := by simpa [hdec] using hdec'
  have e := execPacket_effect hrun
  refine ⟨e.generals, fun c hc => ?_, fun a => congrArg (Mem.find a) e.mem, e.pc⟩
  rw [(execPacket_controlEffect hrun).controls c hc, stored_retire, stored_nextPc]

/-- Settles O37, by what the effects of a step's instructions keep of each part of the invariant. -/
theorem everyStepKeepsInv : Obligations.EveryStepKeepsInv := fun _ _ hs h => step_keeps_inv hs h

/-- Settles O40, by what the effects of a step's instructions own and keep. -/
theorem stepChangesNothingFixed : Obligations.StepChangesNothingFixed := fun _ _ h => step_unchangeable h

/-- Settles O41, by induction on the run. -/
theorem runsKeepInvAndFixedState : Obligations.RunsKeepInvAndFixedState := by
  intro launch t hinv hreach
  induction hreach with
  | start => exact ⟨hinv, Unchangeable.refl launch⟩
  | step _ hstep ih => exact ⟨step_keeps_inv ih.1 hstep, ih.2.trans (step_unchangeable hstep)⟩

/-- Settles O6: a packet of one instruction is executed as D18(b) says too. -/
theorem stepRunsWholePacket : Obligations.StepRunsWholePacket := by
  intro s p is hf hdec
  simp only [step, stepPacket, hf, andThen_next, runFetched, hdec, runPacket_eq_execPacket]

/-- Settles O5, the case of O6 with one instruction. -/
theorem stepRunsDecodedInstruction : Obligations.StepRunsDecodedInstruction := by
  intro s p i hf hdec
  rw [stepRunsWholePacket s p [i] hf hdec, execPacket_singleton]

/-- Settles O8: the slot that reads PC reads the packet's start, and no other one writes its destination. -/
theorem packetReadsOneProgramCounter : Obligations.PacketReadsOneProgramCounter := by
  intro is s t d h
  constructor
  · intro hi
    obtain ⟨n, before, u, hu, hgen, -⟩ := execPacket_mem h hi
    obtain ⟨v, hv, rfl⟩ := moveRdCs_eq_next.mp hu
    obtain rfl : s.pc = v := by simpa [State.readC] using hv
    rw [hgen d (by simp [destsOf]), State.getR_setR_self]
  · intro hi
    obtain ⟨n, before, u, hu, hgen, -⟩ := execPacket_mem h hi
    obtain ⟨-, -, hi, lo, hhi, -, rfl⟩ := moveRddCss_eq_next.mp hu
    obtain rfl : s.pc = hi := by simpa [State.readC] using (show s.readC n .pc = .next hi from hhi)
    rw [hgen (oddOf d) (by simp [destsOf]), State.getR_setRR_high, extract_high_append]

/-- Settles O9: each slot reads the packet's start, and no other one writes its destination. -/
theorem packetReadsBeforeItWrites : Obligations.PacketReadsBeforeItWrites := by
  intro is s t c d r hc h hread hwrite
  constructor
  · obtain ⟨n, before, u, hu, hgen, -⟩ := execPacket_mem h hread
    obtain ⟨v, hv, rfl⟩ := moveRdCs_eq_next.mp hu
    obtain rfl : stored s c = v := by simpa [State.readC_plain s n hc] using hv
    rw [hgen d (by simp [destsOf]), State.getR_setR_self]
  · obtain ⟨n, before, u, hu, -, hctl⟩ := execPacket_mem h hwrite
    obtain ⟨u', hu', hval⟩ := State.writeC_plain before hc (s.getR r)
    obtain rfl : u' = u := by simpa [hu'] using moveCdRs_eq_next.mp hu
    rw [hctl c (by simp [destsOf]), hval]

/-- Settles O10: the completion counts once, and no instruction touches the count. -/
theorem packetCountsOnce : Obligations.PacketCountsOnce := by
  intro is s t h hlo hhi
  exact counted_iff.mpr ((execPacket_controlEffect h).pktcount hlo hhi)

/-- Settles O11: two instructions that name one register leave the packet's destinations with a repetition. -/
theorem packetWithDoubleWriteIsRefused : Obligations.PacketWithDoubleWriteIsRefused := by
  intro is i j x s hsub hi hj
  have hrepeat : ¬ ([i, j].flatMap destsOf).Nodup := by
    intro hnodup
    simp only [List.flatMap_cons, List.flatMap_nil, List.append_nil, List.nodup_append] at hnodup
    obtain ⟨-, -, hdisjoint⟩ := hnodup
    exact hdisjoint x hi x hj rfl
  have hdistinct : distinct (is.flatMap destsOf) = false := by
    rw [← Bool.not_eq_true, distinct_iff_nodup]
    exact fun hnodup => hrepeat (hnodup.sublist (hsub.flatMap destsOf))
  have hne : is.isEmpty = false := by
    cases is with
    | nil => cases hsub
    | cons => rfl
  simp [execPacket, hne, hdistinct]

/-- Settles O34: neither the fetch nor an instruction faults. -/
theorem stepNeverFaults : Obligations.StepNeverFaults := step_no_fault

end Sys2Proof.Proofs
end

section
/-! SUPPORT. The decoder and the encoder: the fields of an assembled word, decoding word by word, and the framing of packets. -/

namespace Sys2Proof

open Sys2Proof.Claims Sys2Proof.Laws

/-! ### The fields of an assembled word (R105) -/

/-- A field of an assembled word, put together from the fields of its parts. -/
theorem extract_assemble (row : Word) (s d i n : Nat) :
    (assemble row s d).extractLsb' i n =
      row.extractLsb' i n ||| (BitVec.ofNat 32 s <<< 16).extractLsb' i n ||| (0xC000#32).extractLsb' i n |||
        (BitVec.ofNat 32 d).extractLsb' i n := by
  simp only [assemble, BitVec.extractLsb'_or]

theorem sourceField_assemble {row : Word} (h : row.extractLsb' 16 5 = 0#5) (s d : Fin 32) :
    sourceField (assemble row s.val d.val) = s := by
  have hs : ∀ s : Fin 32, (BitVec.ofNat 32 s.val <<< 16).extractLsb' 16 5 = BitVec.ofNat 5 s.val := by decide
  have hd : ∀ d : Fin 32, (BitVec.ofNat 32 d.val).extractLsb' 16 5 = 0#5 := by decide
  have hw : (assemble row s.val d.val).extractLsb' 16 5 = BitVec.ofNat 5 s.val := by
    rw [extract_assemble, h, hs, hd]
    simp
  apply Fin.ext
  simp [sourceField, hw]

theorem destField_assemble {row : Word} (h : row.extractLsb' 0 5 = 0#5) (s d : Fin 32) :
    destField (assemble row s.val d.val) = d := by
  have hs : ∀ s : Fin 32, (BitVec.ofNat 32 s.val <<< 16).extractLsb' 0 5 = 0#5 := by decide
  have hd : ∀ d : Fin 32, (BitVec.ofNat 32 d.val).extractLsb' 0 5 = BitVec.ofNat 5 d.val := by decide
  have hw : (assemble row s.val d.val).extractLsb' 0 5 = BitVec.ofNat 5 d.val := by
    rw [extract_assemble, h, hs, hd]
    simp
  apply Fin.ext
  simp [destField, hw]

theorem parseBits_assemble {row : Word} (h : row.extractLsb' 14 2 = 0#2) (s d : Fin 32) :
    parseBits (assemble row s.val d.val) = 3#2 := by
  have hs : ∀ s : Fin 32, (BitVec.ofNat 32 s.val <<< 16).extractLsb' 14 2 = 0#2 := by decide
  have hd : ∀ d : Fin 32, (BitVec.ofNat 32 d.val).extractLsb' 14 2 = 0#2 := by decide
  rw [parseBits, extract_assemble, h, hs, hd]
  rfl

theorem predField_assemble (s : PReg) (d : Reg) : predField (assemble matchRdPs s.val d.val) = s := by
  revert s d
  decide

/-! ### The rows of the opcode table -/

theorem matchRow_rdCs {w : Word} (h : w &&& maskCr = matchRdCs) :
    matchRow w = some (.rdCs (destField w) (.ofNum (sourceField w))) := by
  rw [matchRow, if_pos h]

theorem matchRow_cdRs {w : Word} (h : w &&& maskCr = matchCdRs) :
    matchRow w = some (.cdRs (.ofNum (destField w)) (sourceField w)) := by
  rw [matchRow, h, if_neg (by decide), if_pos rfl]

theorem matchRow_rddCss {w : Word} (h : w &&& maskCr = matchRddCss) :
    matchRow w = some (.rddCss (destField w) (.ofNum (sourceField w))) := by
  rw [matchRow, h, if_neg (by decide), if_neg (by decide), if_pos rfl]

theorem matchRow_cddRss {w : Word} (h : w &&& maskCr = matchCddRss) :
    matchRow w = some (.cddRss (.ofNum (destField w)) (sourceField w)) := by
  rw [matchRow, h, if_neg (by decide), if_neg (by decide), if_neg (by decide), if_pos rfl]

/-- A word of the `Rd=Ps` row is of no control transfer row. -/
theorem maskCr_ne_of_rdPs {w row : Word} (hrow : row &&& maskPs ≠ matchRdPs) (h : w &&& maskPs = matchRdPs) :
    w &&& maskCr ≠ row := by
  rintro rfl
  rw [BitVec.and_assoc, show maskCr &&& maskPs = maskPs by decide] at hrow
  exact hrow h

theorem matchRow_rdPs {w : Word} (h : w &&& maskPs = matchRdPs) : matchRow w = some (.rdPs (destField w) (predField w)) := by
  rw [matchRow, if_neg (maskCr_ne_of_rdPs (by decide) h), if_neg (maskCr_ne_of_rdPs (by decide) h),
    if_neg (maskCr_ne_of_rdPs (by decide) h), if_neg (maskCr_ne_of_rdPs (by decide) h), if_pos h]

/-- All that the rows can give: an instruction of the row whose fixed bits the word has. -/
theorem matchRow_eq_some {w : Word} {i : Instr} (h : matchRow w = some i) :
    (w &&& maskCr = matchRdCs ∧ i = .rdCs (destField w) (.ofNum (sourceField w))) ∨
      (w &&& maskCr = matchCdRs ∧ i = .cdRs (.ofNum (destField w)) (sourceField w)) ∨
      (w &&& maskCr = matchRddCss ∧ i = .rddCss (destField w) (.ofNum (sourceField w))) ∨
      (w &&& maskCr = matchCddRss ∧ i = .cddRss (.ofNum (destField w)) (sourceField w)) ∨
      (w &&& maskPs = matchRdPs ∧ i = .rdPs (destField w) (predField w)) := by
  unfold matchRow at h
  split_ifs at h <;> cases h <;> simp_all

/-- The encoder's word is in its instruction's row, and its fields are the operands. -/
theorem matchRow_encode (i : Instr) : matchRow (encode i) = some i := by
  cases i with
  | rdCs d c =>
    rw [matchRow_rdCs (RowMatch.rdCs d c), encode, sourceField_assemble (by decide), destField_assemble (by decide),
      Machine.CReg.ofNum_num]
  | cdRs c r =>
    rw [matchRow_cdRs (RowMatch.cdRs c r), encode, sourceField_assemble (by decide), destField_assemble (by decide),
      Machine.CReg.ofNum_num]
  | rddCss d c =>
    rw [matchRow_rddCss (RowMatch.rddCss d c), encode, sourceField_assemble (by decide), destField_assemble (by decide),
      Machine.CReg.ofNum_num]
  | cddRss c r =>
    rw [matchRow_cddRss (RowMatch.cddRss c r), encode, sourceField_assemble (by decide), destField_assemble (by decide),
      Machine.CReg.ofNum_num]
  | rdPs d p =>
    have hd : destField (assemble matchRdPs p.val d.val) = d :=
      destField_assemble (by decide) (p.castLE (by omega) : Fin 32) d
    rw [matchRow_rdPs (RowMatch.rdPs d p), encode, predField_assemble, hd]

/-- The encoder gives the parse bits of a packet's last word (R106). -/
theorem parseBits_encode (i : Instr) : parseBits (encode i) = 3#2 := by
  cases i with
  | rdPs d p => exact parseBits_assemble (by decide) (p.castLE (by omega) : Fin 32) d
  | rdCs | cdRs | rddCss | cddRss => exact parseBits_assemble (by decide) _ _

/-! ### Parse bits replaced (R106) -/

theorem parseBits_asInnerWord (w : Word) : parseBits (asInnerWord w) = parseBits w &&& 1#2 := by
  rw [parseBits, asInnerWord, BitVec.extractLsb'_and]
  rfl

theorem sourceField_asInnerWord (w : Word) : sourceField (asInnerWord w) = sourceField w := by
  have h : (asInnerWord w).extractLsb' 16 5 = w.extractLsb' 16 5 := by
    rw [asInnerWord, BitVec.extractLsb'_and, show (0xFFFF7FFF#32).extractLsb' 16 5 = BitVec.allOnes 5 by decide,
      BitVec.and_allOnes]
  simp only [sourceField, h]

theorem destField_asInnerWord (w : Word) : destField (asInnerWord w) = destField w := by
  have h : (asInnerWord w).extractLsb' 0 5 = w.extractLsb' 0 5 := by
    rw [asInnerWord, BitVec.extractLsb'_and, show (0xFFFF7FFF#32).extractLsb' 0 5 = BitVec.allOnes 5 by decide,
      BitVec.and_allOnes]
  simp only [destField, h]

theorem predField_asInnerWord (w : Word) : predField (asInnerWord w) = predField w := by
  have h : (asInnerWord w).extractLsb' 16 2 = w.extractLsb' 16 2 := by
    rw [asInnerWord, BitVec.extractLsb'_and, show (0xFFFF7FFF#32).extractLsb' 16 2 = BitVec.allOnes 2 by decide,
      BitVec.and_allOnes]
  simp only [predField, h]

/-- The rows do not consult the parse bits (log 2). -/
theorem matchRow_asInnerWord (w : Word) : matchRow (asInnerWord w) = matchRow w := by
  have hcr : asInnerWord w &&& maskCr = w &&& maskCr := by
    rw [asInnerWord, BitVec.and_assoc, show 0xFFFF7FFF#32 &&& maskCr = maskCr by decide]
  have hps : asInnerWord w &&& maskPs = w &&& maskPs := by
    rw [asInnerWord, BitVec.and_assoc, show 0xFFFF7FFF#32 &&& maskPs = maskPs by decide]
  simp only [matchRow, hcr, hps, sourceField_asInnerWord, destField_asInnerWord, predField_asInnerWord]

/-- An encoded word is the word of a packet of one already. -/
theorem asOnlyWord_encode (i : Instr) : asOnlyWord (encode i) = encode i := by
  have h : ∀ (row : Word) (s d : Nat), asOnlyWord (assemble row s d) = assemble row s d := by
    intro row s d
    simp only [asOnlyWord, assemble]
    rw [BitVec.or_assoc, BitVec.or_comm (BitVec.ofNat 32 d), ← BitVec.or_assoc, BitVec.or_assoc _ 0xC000#32 0xC000#32,
      BitVec.or_self]
  cases i <;> exact h _ _ _

/-! ### One word -/

/-- All that decoding a word can do when it answers an instruction. -/
theorem decodeWord_eq_ok {w : Word} {i : Instr} :
    decodeWord w = .ok i ↔ parseBits w ≠ 0#2 ∧ matchRow w = some i ∧ i.wellFormed = true := by
  unfold decodeWord
  by_cases hp : parseBits w = 0#2
  · simp [hp]
  · cases hm : matchRow w with
    | none => simp [hp]
    | some j =>
      by_cases hj : j.wellFormed = true
      · simp only [hp, if_false, hj, if_true, Except.ok.injEq, ne_eq, not_false_eq_true, Option.some.injEq, true_and]
        exact ⟨fun h => ⟨h, h ▸ hj⟩, fun h => h.1⟩
      · simp only [hp, if_false, hj, reduceCtorEq, ne_eq, not_false_eq_true, Option.some.injEq, true_and, false_iff, not_and]
        rintro rfl
        exact hj

theorem decodeWord_duplex {w : Word} (h : parseBits w = 0#2) : decodeWord w = .error (.duplex w) := by
  rw [decodeWord, if_pos h]

theorem decodeWord_encode {i : Instr} (hi : i.wellFormed = true) : decodeWord (encode i) = .ok i :=
  decodeWord_eq_ok.mpr ⟨by rw [parseBits_encode]; decide, matchRow_encode i, hi⟩

theorem parseBits_inner_encode (i : Instr) : parseBits (asInnerWord (encode i)) = 1#2 := by
  rw [parseBits_asInnerWord, parseBits_encode]
  rfl

theorem decodeWord_inner_encode {i : Instr} (hi : i.wellFormed = true) : decodeWord (asInnerWord (encode i)) = .ok i :=
  decodeWord_eq_ok.mpr
    ⟨by rw [parseBits_inner_encode]; decide, by rw [matchRow_asInnerWord, matchRow_encode], hi⟩

/-! ### Bytes and words (R106, D13) -/

/-- A word's bytes put together are the word. -/
theorem wordOfBytes_extract (w : Word) :
    wordOfBytes (w.extractLsb' 0 8) (w.extractLsb' 8 8) (w.extractLsb' 16 8) (w.extractLsb' 24 8) = w :=
  Machine.append_extract_bytes w

/-- Four bytes are the bytes of the word that they make. -/
theorem bytesOfWord_wordOfBytes (b0 b1 b2 b3 : Byte) : bytesOfWord (wordOfBytes b0 b1 b2 b3) = [b0, b1, b2, b3] := by
  have h0 : (wordOfBytes b0 b1 b2 b3).extractLsb' 0 8 = b0 := BitVec.extractLsb'_append_eq_right
  have h1 : (wordOfBytes b0 b1 b2 b3).extractLsb' 8 8 = b1 :=
    (BitVec.extractLsb'_append_eq_of_le (by omega)).trans BitVec.extractLsb'_append_eq_right
  have h2 : (wordOfBytes b0 b1 b2 b3).extractLsb' 16 8 = b2 :=
    (BitVec.extractLsb'_append_eq_of_le (by omega)).trans
      ((BitVec.extractLsb'_append_eq_of_le (by omega)).trans BitVec.extractLsb'_append_eq_right)
  have h3 : (wordOfBytes b0 b1 b2 b3).extractLsb' 24 8 = b3 :=
    (BitVec.extractLsb'_append_eq_of_le (by omega)).trans
      ((BitVec.extractLsb'_append_eq_of_le (by omega)).trans BitVec.extractLsb'_append_eq_left)
  simp only [bytesOfWord, h0, h1, h2, h3]

/-- The parse bits are the upper two of a word's second byte. -/
theorem extract_second_byte (w : Word) : (w.extractLsb' 8 8).extractLsb' 6 2 = parseBits w := by
  refine BitVec.eq_of_getLsbD_eq fun i hi => ?_
  simp only [parseBits, BitVec.getLsbD_extractLsb', show 6 + i < 8 by omega, hi, decide_true, Bool.true_and]
  rw [show 8 + (6 + i) = 14 + i by omega]

/-- A word that decodes is the first instruction of any bytes that begin with it. -/
theorem decode_bytesOfWord {w : Word} {i : Instr} (h : decodeWord w = .ok i) (rest : List Byte) :
    decode (bytesOfWord w ++ rest) = .ok (i, rest) := by
  simp only [bytesOfWord, List.cons_append, List.nil_append, decode, wordOfBytes_extract, h]

/-! ### The words of a packet -/

/-- A word that fits its place and decodes is the packet's next instruction. -/
theorem decodeFrom_word {k : Nat} {w : Word} {rest : List Byte} {i : Instr} (hf : framingError k rest.isEmpty w = none)
    (hw : decodeWord w = .ok i) :
    decodeFrom k (bytesOfWord w ++ rest) = (decodeFrom (k + 1) rest).map (i :: ·) := by
  simp only [bytesOfWord, List.cons_append, List.nil_append, decodeFrom, wordOfBytes_extract, hf, hw]
  cases decodeFrom (k + 1) rest <;> rfl

/-- A word that does not fit its place ends the decoding. -/
theorem decodeFrom_framingError {k : Nat} {w : Word} {rest : List Byte} {e : DecodeError}
    (hf : framingError k rest.isEmpty w = some e) : decodeFrom k (bytesOfWord w ++ rest) = .error e := by
  simp only [bytesOfWord, List.cons_append, List.nil_append, decodeFrom, wordOfBytes_extract, hf]

/-- A word that fits its place and is no instruction ends the decoding. -/
theorem decodeFrom_wordError {k : Nat} {w : Word} {rest : List Byte} {e : DecodeError}
    (hf : framingError k rest.isEmpty w = none) (hw : decodeWord w = .error e) :
    decodeFrom k (bytesOfWord w ++ rest) = .error e := by
  simp only [bytesOfWord, List.cons_append, List.nil_append, decodeFrom, wordOfBytes_extract, hf, hw]

/-- All that decoding a packet's words can do when it answers instructions. -/
theorem decodeFrom_eq_ok {k : Nat} {bytes : List Byte} {is : List Instr} (h : decodeFrom k bytes = .ok is) :
    (bytes = [] ∧ is = []) ∨
      ∃ w rest i js, bytes = bytesOfWord w ++ rest ∧ is = i :: js ∧ framingError k rest.isEmpty w = none ∧
        decodeWord w = .ok i ∧ decodeFrom (k + 1) rest = .ok js := by
  match bytes with
  | [] => exact .inl ⟨rfl, by simpa [decodeFrom, eq_comm] using h⟩
  | [_] | [_, _] | [_, _, _] => simp [decodeFrom] at h
  | b0 :: b1 :: b2 :: b3 :: rest =>
    refine .inr ⟨wordOfBytes b0 b1 b2 b3, rest, ?_⟩
    rw [decodeFrom] at h
    split at h
    · cases h
    · split at h
      · cases h
      · split at h
        · cases h
        · cases h
          exact ⟨_, _, by rw [bytesOfWord_wordOfBytes]; rfl, rfl, ‹_›, ‹_›, ‹_›⟩

/-! ### What fits where (R106) -/

theorem framingError_too_long {k : Nat} (hk : 4 ≤ k) (last : Bool) (w : Word) :
    framingError k last w = some .packetTooLong := by
  rw [framingError, if_pos hk]

theorem framingError_inner_end {k : Nat} (hk : k < 4) {w : Word} (hw : parseBits w = 3#2 ∨ parseBits w = 0#2) :
    framingError k false w = some (.badFraming w) := by
  simp [framingError, hk, hw]

theorem framingError_loop_end {k : Nat} (hk : k < 2) {w : Word} (hw : parseBits w = 2#2) :
    framingError k false w = some (.loopEnd w) := by
  simp [framingError, show k < 4 by omega, hk, hw]

theorem framingError_inner {k : Nat} (hk : k < 4) {w : Word} (hw : parseBits w = 1#2) : framingError k false w = none := by
  simp [framingError, hk, hw]

theorem framingError_last {k : Nat} (hk : k < 4) {w : Word} (hw : parseBits w = 3#2 ∨ parseBits w = 0#2) :
    framingError k true w = none := by
  simp [framingError, hk, hw]

theorem framingError_last_inner {k : Nat} (hk : k < 4) {w : Word} (hw : parseBits w = 1#2 ∨ parseBits w = 2#2) :
    framingError k true w = some (.badFraming w) := by
  rcases hw with hw | hw <;> simp [framingError, hk, hw]

/-- A word that fits its place has one of the first four places, and parse bits 11 or 00 where it is the last. -/
theorem framingError_eq_none {k : Nat} {last : Bool} {w : Word} (h : framingError k last w = none) :
    k < 4 ∧ (last = true → parseBits w = 3#2 ∨ parseBits w = 0#2) := by
  unfold framingError at h
  split_ifs at h <;> simp_all

/-! ### Packets -/

/-- Encoded words before the last of a packet decode in their turn. -/
theorem decodeFrom_innerBytes {k : Nat} {before : List Instr} {rest : List Byte} (hk : k + before.length ≤ 4)
    (hwf : ∀ i ∈ before, i.wellFormed = true) (hrest : rest ≠ []) :
    decodeFrom k (innerBytes before ++ rest) = (decodeFrom (k + before.length) rest).map (before ++ ·) := by
  induction before generalizing k with
  | nil =>
    simp only [innerBytes, List.flatMap_nil, List.nil_append, List.length_nil, Nat.add_zero]
    cases decodeFrom k rest <;> rfl
  | cons i before ih =>
    rw [List.length_cons] at hk
    have hne : (innerBytes before ++ rest).isEmpty = false := by simp [hrest]
    have hsplit : innerBytes (i :: before) ++ rest = bytesOfWord (asInnerWord (encode i)) ++ (innerBytes before ++ rest) := by
      simp [innerBytes]
    have hf : framingError k (innerBytes before ++ rest).isEmpty (asInnerWord (encode i)) = none := by
      rw [hne]
      exact framingError_inner (by omega) (parseBits_inner_encode i)
    rw [hsplit, decodeFrom_word hf (decodeWord_inner_encode (hwf i (by simp))),
      ih (by omega) (fun j hj => hwf j (by simp [hj])), List.length_cons,
      show k + 1 + before.length = k + (before.length + 1) by omega]
    cases decodeFrom (k + (before.length + 1)) rest <;> rfl

/-- The encoded packet is the words before the last, then the last. -/
theorem encodePacket_append (before : List Instr) (i : Instr) :
    encodePacket (before ++ [i]) = innerBytes before ++ encodeBytes i := by
  induction before with
  | nil => rfl
  | cons j before ih =>
    have hsplit : encodePacket (j :: (before ++ [i])) = bytesOfWord (asInnerWord (encode j)) ++ encodePacket (before ++ [i]) := by
      cases before <;> rfl
    rw [List.cons_append, hsplit, ih]
    simp [innerBytes]

/-- A packet of at most four encoded instructions decodes to them. -/
theorem decodePacket_encodePacket {is : List Instr} (hlen : is.length ≤ 4) (hwf : ∀ i ∈ is, i.wellFormed = true) :
    decodePacket (encodePacket is) = .ok is := by
  rcases List.eq_nil_or_concat' is with rfl | ⟨before, i, rfl⟩
  · rfl
  · rw [List.length_append, List.length_singleton] at hlen
    have hlast : decodeFrom before.length (encodeBytes i) = .ok [i] := by
      have h := decodeFrom_word (rest := []) (framingError_last (by omega : before.length < 4) (.inl (parseBits_encode i)))
        (decodeWord_encode (hwf i (by simp)))
      simpa [encodeBytes, decodeFrom, Except.map] using h
    rw [decodePacket, encodePacket_append, decodeFrom_innerBytes (by omega) (fun j hj => hwf j (by simp [hj]))
      (by simp [encodeBytes, bytesOfWord]), Nat.zero_add, hlast]
    rfl

/-- The error that a word after encoded ones makes is the packet's. -/
theorem decodePacket_error_after {before : List Instr} {v : Word} {rest : List Byte} {e : DecodeError} (hlen : before.length ≤ 4)
    (hwf : ∀ i ∈ before, i.wellFormed = true) (h : decodeFrom before.length (bytesOfWord v ++ rest) = .error e) :
    decodePacket (innerBytes before ++ bytesOfWord v ++ rest) = .error e := by
  rw [decodePacket, List.append_assoc, decodeFrom_innerBytes (by omega) hwf (by simp [bytesOfWord]), Nat.zero_add, h]
  rfl

/-- What decodes has one word for each instruction, within four places. -/
theorem decodeFrom_length {k : Nat} {bytes : List Byte} {is : List Instr} (h : decodeFrom k bytes = .ok is) :
    bytes.length = 4 * is.length ∧ (is ≠ [] → k + is.length ≤ 4) := by
  induction is generalizing k bytes with
  | nil =>
    rcases decodeFrom_eq_ok h with ⟨rfl, -⟩ | ⟨_, _, _, _, -, hcons, -⟩
    · simp
    · cases hcons
  | cons i is ih =>
    rcases decodeFrom_eq_ok h with ⟨-, hnil⟩ | ⟨w, rest, j, js, rfl, hcons, hf, -, hrest⟩
    · cases hnil
    · cases hcons
      obtain ⟨hlen, hplace⟩ := ih hrest
      have hk := (framingError_eq_none hf).1
      refine ⟨by simp [bytesOfWord, hlen]; omega, fun _ => ?_⟩
      cases is with
      | nil => simpa using hk
      | cons j js =>
        have := hplace (by simp)
        rw [List.length_cons]
        omega

/-- The second byte of a packet's last word, the third from its end, holds the parse bits 11. -/
theorem decodeFrom_last_parseBits {k : Nat} {bytes : List Byte} {is : List Instr} (h : decodeFrom k bytes = .ok is) {b : Byte}
    (hb : bytes[bytes.length - 3]? = some b) : b.extractLsb' 6 2 = 3#2 := by
  induction is generalizing k bytes with
  | nil =>
    rcases decodeFrom_eq_ok h with ⟨rfl, -⟩ | ⟨_, _, _, _, -, hcons, -⟩
    · simp at hb
    · cases hcons
  | cons i is ih =>
    rcases decodeFrom_eq_ok h with ⟨-, hnil⟩ | ⟨w, rest, j, js, rfl, hcons, hf, hw, hrest⟩
    · cases hnil
    · cases hcons
      by_cases hlast : rest = []
      · subst hlast
        have hparse : parseBits w = 3#2 :=
          ((framingError_eq_none hf).2 rfl).resolve_right (decodeWord_eq_ok.mp hw).1
        obtain rfl : w.extractLsb' 8 8 = b := by simpa [bytesOfWord] using hb
        rw [extract_second_byte, hparse]
      · refine ih hrest ?_
        have hlen := (decodeFrom_length hrest).1
        have hpos : 0 < rest.length := List.length_pos_iff.mpr hlast
        have hword : (bytesOfWord w).length = 4 := rfl
        rwa [List.getElem?_append_right (by rw [List.length_append]; omega),
          show (bytesOfWord w ++ rest).length - 3 - (bytesOfWord w).length = rest.length - 3 by
            rw [List.length_append]; omega] at hb

end Sys2Proof
end

section
/-! SUPPORT. The operand bits of a decoded word, and words that the program text holds. -/

namespace Sys2Proof

/-! ### A decoded word, bit by bit (R105) -/

/-- A field written back to its place is the word under the field's mask. -/
theorem field_shiftLeft (w : Word) {i n : Nat} {mask : Word}
    (hmask : ∀ j, j < 32 → mask.getLsbD j = (decide (i ≤ j) && decide (j - i < n))) :
    BitVec.ofNat 32 (w.extractLsb' i n).toNat <<< i = w &&& mask := by
  refine BitVec.eq_of_getLsbD_eq fun j hj => ?_
  rw [BitVec.ofNat_toNat, BitVec.getLsbD_and, hmask j hj, BitVec.getLsbD_shiftLeft, BitVec.getLsbD_setWidth,
    BitVec.getLsbD_extractLsb']
  by_cases hi : i ≤ j
  · simp [hj, hi, show ¬ j < i by omega, show j - i < 32 by omega, Bool.and_comm]
  · simp [hi, show j < i by omega]

theorem sourceField_word (w : Word) : BitVec.ofNat 32 (sourceField w).val <<< 16 = w &&& 0x1F0000#32 :=
  field_shiftLeft w (by decide)

theorem predField_word (w : Word) : BitVec.ofNat 32 (predField w).val <<< 16 = w &&& 0x30000#32 :=
  field_shiftLeft w (by decide)

theorem destField_word (w : Word) : BitVec.ofNat 32 (destField w).val = w &&& 0x1F#32 := by
  have h : BitVec.ofNat 32 (destField w).val <<< 0 = w &&& 0x1F#32 := field_shiftLeft w (by decide)
  rwa [BitVec.shiftLeft_zero] at h

/-- A word assembled from parts of another one agrees with it on those parts, whatever the parse bits. -/
theorem assemble_and_operands {w row fixed source bits : Word} {s d : Nat} (hrow : w &&& fixed = row)
    (hs : BitVec.ofNat 32 s <<< 16 = w &&& source) (hd : BitVec.ofNat 32 d = w &&& 0x1F#32)
    (hparse : 0xC000#32 &&& bits = 0#32) (hbits : fixed ||| source ||| 0x1F#32 = bits) :
    assemble row s d &&& bits = w &&& bits := by
  have hself : w &&& bits &&& bits = w &&& bits := by rw [BitVec.and_assoc, BitVec.and_self]
  have hparts : assemble row s d = (w &&& bits) ||| 0xC000#32 := by
    rw [assemble, ← hrow, hs, hd, ← hbits, BitVec.and_or_distrib_left, BitVec.and_or_distrib_left, BitVec.or_assoc _ 0xC000#32,
      BitVec.or_comm 0xC000#32, ← BitVec.or_assoc]
  rw [hparts, BitVec.and_comm, BitVec.and_or_distrib_left, BitVec.and_comm bits, BitVec.and_comm bits, hparse, BitVec.or_zero,
    hself]

/-- The word of a decoded control transfer, on its fixed and operand bits. -/
theorem assemble_cr_operands {w row : Word} (hrow : w &&& maskCr = row) :
    assemble row (sourceField w).val (destField w).val &&& 0xFFFF001F#32 = w &&& 0xFFFF001F#32 :=
  assemble_and_operands hrow (sourceField_word w) (destField_word w) (by decide) (by decide)

/-- The word of a decoded `Rd=Ps`, on its fixed and operand bits. -/
theorem assemble_ps_operands {w : Word} (hrow : w &&& maskPs = matchRdPs) :
    assemble matchRdPs (predField w).val (destField w).val &&& 0xFF43001F#32 = w &&& 0xFF43001F#32 :=
  assemble_and_operands hrow (predField_word w) (destField_word w) (by decide) (by decide)

end Sys2Proof

namespace Sys2Proof.Machine

/-! ### The program text -/

theorem textFits_iff (l : List TextPacket) : textFits l = true ↔ ∀ p ∈ l, p.addr.toNat + p.bytes.length < 4294967296 := by
  induction l with
  | nil => simp [textFits]
  | cons p rest ih => simp [textFits, ih]

/-- A packet that fits may be placed in a text that fits. -/
theorem textFits_placePacket {q : TextPacket} {l : List TextPacket} (hq : q.addr.toNat + q.bytes.length < 4294967296)
    (hl : textFits l = true) : textFits (placePacket q l) = true := by
  induction l with
  | nil => simp [placePacket, textFits, hq]
  | cons p rest ih =>
    simp only [textFits, Bool.and_eq_true, decide_eq_true_eq] at hl
    unfold placePacket
    split
    · simp [textFits, hq, hl]
    · split
      · simp [textFits, hq, hl.2]
      · simp [textFits, hl.1, ih hl.2]

theorem findPacket_eq_none (a : Word) (l : List TextPacket) : findPacket a l = none ↔ ∀ p ∈ l, p.addr ≠ a := by
  induction l with
  | nil => simp [findPacket]
  | cons p rest ih =>
    unfold findPacket
    split
    · simp_all
    · simp_all

theorem State.legalPc_iff (s : State) (a : Word) : s.legalPc a = true ↔ a.toNat % s.pcAlignment = 0 := by
  simp [State.legalPc]

/-- A refused fetch is a refused step. -/
theorem step_of_fetch_refused {s : State} {r : Refusal} (h : s.fetch = .refused r) : step s = .refused r := by
  simp only [step, stepPacket, h, andThen_refused]

/-- The packet of a word placed for the fetch is fetched (log 10). -/
theorem fetch_withFetchWord {s : State} {i : Instr} (htext : textFits s.text = true)
    (hlegal : s.pc.toNat % s.pcAlignment = 0) (hroom : s.pc.toNat + 4 < 4294967296) :
    (s.withFetchWord 32 (encode i).toNat).fetch = .next ⟨s.pc, s.pc + 4, encodeBytes i⟩ := by
  have hword : BitVec.ofNat 32 ((encode i).toNat % 2 ^ 32) = encode i := by
    rw [Nat.mod_eq_of_lt (encode i).isLt, BitVec.ofNat_toNat, BitVec.setWidth_eq]
  have hplaced : (s.withFetchWord 32 (encode i).toNat).text = placePacket ⟨s.pc, s.pc + 4, encodeBytes i⟩ s.text := by
    simp only [State.withFetchWord, loadWord, addressAfter, if_pos hroom, hword, asOnlyWord_encode, encodeBytes]
    rfl
  refine State.fetch_eq_next.mpr ⟨(State.legalPc_iff _ _).mpr hlegal, ?_, ?_⟩
  · rw [hplaced]
    exact findPacket_placePacket ⟨s.pc, s.pc + 4, encodeBytes i⟩ s.text
  · rw [hplaced]
    exact textFits_placePacket (by simpa [encodeBytes, bytesOfWord] using hroom) htext

end Sys2Proof.Machine
end

section
/-! The statements about encoding and fetching. -/

namespace Sys2Proof.Proofs

open Sys2Proof.Machine Sys2Proof.Claims

/-- Settles O1: an encoded word is in its instruction's row, with the operands in its fields. -/
theorem decodeEncodeRoundTrip : Obligations.DecodeEncodeRoundTrip :=
  fun _ rest hi => decode_bytesOfWord (decodeWord_encode hi) rest

/-- Settles O2, row by row. -/
theorem decodedWordHasItsOperandBits : Obligations.DecodedWordHasItsOperandBits := by
  intro w i h
  obtain ⟨hparse, hrow, hwf⟩ := decodeWord_eq_ok.mp h
  refine ⟨hwf, hparse, ?_⟩
  rcases matchRow_eq_some hrow with ⟨hw, rfl⟩ | ⟨hw, rfl⟩ | ⟨hw, rfl⟩ | ⟨hw, rfl⟩ | ⟨hw, rfl⟩
  · simpa only [encode, CReg.num_ofNum] using assemble_cr_operands hw
  · simpa only [encode, CReg.num_ofNum] using assemble_cr_operands hw
  · simpa only [encode, CReg.num_ofNum] using assemble_cr_operands hw
  · simpa only [encode, CReg.num_ofNum] using assemble_cr_operands hw
  · exact assemble_ps_operands hw

/-- Settles O3: the words before the last in their turn, then the word in question by the framing rules. -/
theorem packetOfEncodedWordsDecodes : Obligations.PacketOfEncodedWordsDecodes := by
  refine ⟨fun is hlen hwf => decodePacket_encodePacket hlen hwf, fun bytes is h => ?_, fun w h => decodeWord_duplex h,
    fun before v rest hwf => ?_⟩
  · obtain ⟨hlen, hplace⟩ := decodeFrom_length h
    refine ⟨hlen, ?_, fun b hb => decodeFrom_last_parseBits h hb⟩
    by_cases his : is = []
    · simp [his]
    · simpa using hplace his
  · have hinner : rest ≠ [] → rest.isEmpty = false := by simp
    refine ⟨fun hlen => ?_, fun hlen hrest hv => ?_, fun hlen hrest hv => ?_, fun hlen hv => ?_, fun hlen hv => ?_⟩
    · exact decodePacket_error_after (by omega) hwf (decodeFrom_framingError (framingError_too_long (by omega) _ v))
    · refine decodePacket_error_after (by omega) hwf (decodeFrom_framingError ?_)
      rw [hinner hrest]
      exact framingError_inner_end hlen hv
    · refine decodePacket_error_after (by omega) hwf (decodeFrom_framingError ?_)
      rw [hinner hrest]
      exact framingError_loop_end hlen hv
    · simpa using decodePacket_error_after (rest := []) (by omega) hwf
        (decodeFrom_framingError (framingError_last_inner hlen hv))
    · simpa using decodePacket_error_after (rest := []) (by omega) hwf
        (decodeFrom_wordError (framingError_last hlen (.inr hv)) (decodeWord_duplex hv))

/-- Settles O4, each word by its row. -/
theorem sampleWordsDecode : Obligations.SampleWordsDecode :=
  ⟨rfl, rfl, rfl, rfl, rfl⟩

/-- Settles O7, by the fetch in each case. -/
theorem fetchFindsItsPacketOrIsRefused : Obligations.FetchFindsItsPacketOrIsRefused := by
  intro s
  refine ⟨fun i hi htext hlegal hroom => ?_, fun hpc => ?_, fun hpc hnone => ?_, fun hpc hsome htop => ?_,
    fun p hp => ⟨fun e he => ?_, fun he => ?_⟩⟩
  · have hdecode : decodePacket (encodeBytes i) = .ok [i] :=
      decodePacket_encodePacket (is := [i]) (by simp) (by simpa using hi)
    exact stepRunsDecodedInstruction (s.withFetchWord 32 (encode i).toNat) ⟨s.pc, s.pc + 4, encodeBytes i⟩ i
      (fetch_withFetchWord htext hlegal hroom) hdecode
  · apply step_of_fetch_refused
    rw [State.fetch, if_neg (by rwa [State.legalPc_iff])]
  · apply step_of_fetch_refused
    rw [State.fetch, if_pos ((s.legalPc_iff _).mpr hpc), (findPacket_eq_none _ _).mpr hnone]
  · apply step_of_fetch_refused
    obtain ⟨q, hq, hqtop⟩ := htop
    have htext : ¬ textFits s.text = true := fun h => absurd ((textFits_iff _).mp h q hq) (by omega)
    cases hfind : findPacket s.pc s.text with
    | none =>
      obtain ⟨p, hp, hpa⟩ := hsome
      exact absurd hpa ((findPacket_eq_none _ _).mp hfind p hp)
    | some p => simp only [State.fetch, if_pos ((s.legalPc_iff _).mpr hpc), hfind, if_neg htext]
  · simp only [step, stepPacket, hp, andThen_next, runFetched, he]
  · rw [stepRunsWholePacket s p [] hp (by rw [he]; rfl)]
    rfl

end Sys2Proof.Proofs
end

section
/-! SUPPORT. The transfers as packets of their own: what each register read and write answers, and what a transfer leaves as it
was (R125 to R129). -/

namespace Sys2Proof.Machine

open Sys2Proof.Claims

/-! ### What a transfer leaves as it was -/

/-- Whether a transfer reads USR, and with it the prefetch engine (R33, D20). -/
def readsUsr : Instr → Bool
  | .rdCs _ c => c == .usr
  | .rddCss _ c => c == .usr
  | .cdRs _ _ => false
  | .cddRss _ _ => false
  | .rdPs _ _ => false

theorem State.noteRead_of_ne (acc start : State) (k : Nat) {c : CReg} (hc : c ≠ .usr) : acc.noteRead start k c = acc := by
  rw [State.noteRead, if_neg hc]

theorem State.writeC_prefetchOpen {s t : State} {c : CReg} {v : Word} (h : s.writeC c v = .next t) :
    t.prefetchOpen = s.prefetchOpen := by
  obtain ⟨-, -, -, -, -, -, hpf, -⟩ := State.writeC_keeps h
  exact hpf

/-- Only a read of USR touches the prefetch engine. -/
theorem applySlot_prefetchOpen {k : Nat} {i : Instr} {s acc t : State} (h : applySlot k i s acc = .next t)
    (hi : readsUsr i = false) : t.prefetchOpen = acc.prefetchOpen := by
  cases i with
  | rdCs d c =>
    obtain ⟨v, -, rfl⟩ := moveRdCs_eq_next.mp h
    rw [State.setR_prefetchOpen, State.noteRead_of_ne _ _ _ (by simpa [readsUsr] using hi)]
  | cdRs c r => exact State.writeC_prefetchOpen (moveCdRs_eq_next.mp h)
  | rddCss d c =>
    obtain ⟨-, -, high, low, -, -, rfl⟩ := moveRddCss_eq_next.mp h
    rw [State.setRR_prefetchOpen, State.noteRead_of_ne _ _ _ (by simpa [readsUsr] using hi)]
  | cddRss c r =>
    obtain ⟨-, -, u, hlo, hhi⟩ := moveCddRss_eq_next.mp h
    exact (State.writeC_prefetchOpen hhi).trans (State.writeC_prefetchOpen hlo)
  | rdPs d p =>
    obtain rfl := moveRdPs_eq_next.mp h
    rfl

/-- A transfer that completes, as the effects of its one slot on the completed state. -/
theorem exec_effect {i : Instr} {s t : State} (h : exec i s = .next t) : SlotEffect (destsOf i) (s.retire 1) t :=
  applySlot_effect (exec_eq_applySlot i s ▸ h)

theorem exec_controlEffect {i : Instr} {s t : State} (h : exec i s = .next t) : ControlEffect (destsOf i) (s.retire 1) t :=
  applySlot_controlEffect (exec_eq_applySlot i s ▸ h)

/-- A transfer that completes changes no register but its destinations; the halves of PKTCOUNT are no part of a frame. -/
theorem exec_frame {i : Instr} {s t : State} {generals : List Reg} {controls : List CReg} (h : exec i s = .next t)
    (hg : ∀ r, Dest.general r ∈ destsOf i → r ∈ generals)
    (hc : ∀ c, Dest.control c ∈ destsOf i → c ∈ controls ∨ c = .pktcountLo ∨ c = .pktcountHi) :
    Frame s t generals controls := by
  have e := exec_effect h
  obtain ⟨-, hnext, htrap, hup, hpkt, htim, hpmu, hmode, hmem, hmap, halign, htext⟩ := e.owned
  refine ⟨fun r hr => e.generals r fun hd => hr (hg r hd), fun c hcs => ?_, htrap,
    ⟨⟨hup, hpkt, htim, hpmu⟩, hmode, hmap, halign, htext, hnext⟩, fun a => congrArg (Mem.find a) hmem⟩
  by_cases hd : Dest.control c ∈ destsOf i
  · rcases (hc c hd).resolve_left hcs with rfl | rfl <;> rfl
  · rw [(exec_controlEffect h).controls c hd, stored_retire]

theorem exec_counted {i : Instr} {s t : State} (h : exec i s = .next t) (hlo : Dest.control .pktcountLo ∉ destsOf i)
    (hhi : Dest.control .pktcountHi ∉ destsOf i) : Counted s t :=
  counted_iff.mpr ((exec_controlEffect h).pktcount hlo hhi)

theorem exec_pc {i : Instr} {s t : State} (h : exec i s = .next t) : t.pc = s.nextPc := (exec_effect h).pc

theorem exec_prefetchOpen {i : Instr} {s t : State} (h : exec i s = .next t) (hi : readsUsr i = false) :
    t.prefetchOpen = s.prefetchOpen :=
  applySlot_prefetchOpen (acc := s.retire 1) (exec_eq_applySlot i s ▸ h) hi

/-- `Rd = Cs` of a register other than USR changes only Rd. -/
theorem exec_rdCs_transfers {d : Reg} {c : CReg} {s t : State} (h : exec (.rdCs d c) s = .next t) (hc : c ≠ .usr) :
    Transfers s t [d] [] :=
  ⟨exec_frame h (by simp [destsOf]) (by simp [destsOf]), exec_counted h (by simp [destsOf]) (by simp [destsOf]), exec_pc h,
    exec_prefetchOpen h (by simpa [readsUsr] using hc)⟩

/-- `Rdd = Css` of a pair other than C9:8 changes only the two registers of Rdd. -/
theorem exec_rddCss_transfers {d : Reg} {c : CReg} {s t : State} (h : exec (.rddCss d c) s = .next t) (hc : c ≠ .usr) :
    Transfers s t [d, oddOf d] [] :=
  ⟨exec_frame h (by simp [destsOf]) (by simp [destsOf]), exec_counted h (by simp [destsOf]) (by simp [destsOf]), exec_pc h,
    exec_prefetchOpen h (by simpa [readsUsr] using hc)⟩

/-- `Cd = Rs` of a register that is no half of PKTCOUNT changes only Cd. -/
theorem exec_cdRs_transfers {c : CReg} {r : Reg} {s t : State} (h : exec (.cdRs c r) s = .next t) (hlo : c ≠ .pktcountLo)
    (hhi : c ≠ .pktcountHi) : Transfers s t [] [c] :=
  ⟨exec_frame h (by simp [destsOf]) (by simp [destsOf]),
    exec_counted h (by simpa [destsOf] using hlo.symm) (by simpa [destsOf] using hhi.symm), exec_pc h, exec_prefetchOpen h rfl⟩

/-- `Cdd = Rss` of a pair other than PKTCOUNT changes only the two registers of Cdd. -/
theorem exec_cddRss_transfers {c : CReg} {r : Reg} {s t : State} (h : exec (.cddRss c r) s = .next t)
    (hlo : CReg.pktcountLo ∉ [c, oddOfC c]) (hhi : CReg.pktcountHi ∉ [c, oddOfC c]) : Transfers s t [] [c, oddOfC c] :=
  ⟨exec_frame h (by simp [destsOf]) (by simp [destsOf]), exec_counted h (by simpa [destsOf] using hlo)
    (by simpa [destsOf] using hhi), exec_pc h, exec_prefetchOpen h rfl⟩

/-! ### What a transfer answers -/

theorem exec_rdCs {d : Reg} {c : CReg} {s : State} {v : Word} (h : s.readC 0 c = .next v) :
    exec (.rdCs d c) s = .next (((s.retire 1).noteRead s 0 c).setR d v) :=
  moveRdCs_eq_next.mpr ⟨v, h, rfl⟩

theorem exec_rddCss {d : Reg} {c : CReg} {s : State} {hi lo : Word} (hd : evenReg d = true) (hc : evenCReg c = true)
    (hhi : s.readC 0 (oddOfC c) = .next hi) (hlo : s.readC 0 c = .next lo) :
    exec (.rddCss d c) s = .next (((s.retire 1).noteRead s 0 c).setRR d (hi ++ lo)) :=
  moveRddCss_eq_next.mpr ⟨hd, hc, hi, lo, hhi, hlo, rfl⟩

theorem exec_cdRs (c : CReg) (r : Reg) (s : State) : exec (.cdRs c r) s = (s.retire 1).writeC c (s.getR r) := rfl

/-- The pair forms on even-numbered registers are the pair read and the pair write (R127, R128). -/
theorem exec_rddCss_even {d : Reg} {c : CReg} (hd : evenReg d = true) (hc : evenCReg c = true) (s : State) :
    exec (.rddCss d c) s = andThen (s.readCC 0 c) fun v => .next (((s.retire 1).noteRead s 0 c).setRR d v) :=
  if_pos (by rw [hd, hc]; rfl)

theorem exec_cddRss_even {c : CReg} {r : Reg} (hc : evenCReg c = true) (hr : evenReg r = true) (s : State) :
    exec (.cddRss c r) s = (s.retire 1).writeCC c (s.getRR r) :=
  if_pos (by rw [hc, hr]; rfl)

theorem exec_cddRss_eq_next {c : CReg} {r : Reg} {s t : State} :
    exec (.cddRss c r) s = .next t ↔
      evenCReg c = true ∧ evenReg r = true ∧
        ∃ u, (s.retire 1).writeC c (s.getR r) = .next u ∧ u.writeC (oddOfC c) (s.getR (oddOf r)) = .next t :=
  moveCddRss_eq_next

/-- `Rdd = Css` with both halves read: each general register is its half (D2). -/
theorem exec_rddCss_getR {d : Reg} {c : CReg} {s : State} {hi lo : Word} (hd : evenReg d = true) (hc : evenCReg c = true)
    (hhi : s.readC 0 (oddOfC c) = .next hi) (hlo : s.readC 0 c = .next lo) :
    ∃ t, exec (.rddCss d c) s = .next t ∧ t.getR (oddOf d) = hi ∧ t.getR d = lo :=
  ⟨_, exec_rddCss hd hc hhi hlo, by rw [State.getR_setRR_high, extract_high_append],
    by rw [State.getR_setRR_low, extract_low_append]⟩

/-- No transfer as a packet of its own faults, so one that does not complete is refused. -/
theorem exec_refused_of_not_next {i : Instr} {s : State} (h : ∀ t, exec i s ≠ .next t) : ∃ q, exec i s = .refused q := by
  cases hx : exec i s with
  | next t => exact absurd hx (h t)
  | fault f => exact absurd (exec_eq_applySlot i s ▸ hx) (applySlot_no_fault 0 i s _ f)
  | refused q => exact ⟨q, rfl⟩

/-! ### The read table (R125) -/

/-- A read whose value the spec fixes answers it. -/
theorem State.readC_fixed {s : State} {c : CReg} {v : Word} (h : fixedRead s c = some v) (k : Nat) : s.readC k c = .next v := by
  cases c
  case upcycleLo | upcycleHi | utimerLo | utimerHi =>
    simp only [fixedRead] at h
    split at h <;> simp_all [State.readC]
  case usr | c5 | c20 | c21 | c22 | c23 | c24 | c25 | c26 | c27 | c28 | c29 => simp [fixedRead] at h
  all_goals exact congrArg Host.Outcome.next (Option.some.inj h)

theorem ne_usr_of_fixedRead {s : State} {c : CReg} {v : Word} (h : fixedRead s c = some v) : c ≠ .usr := by
  rintro rfl
  simp [fixedRead] at h

/-- USR reads as stored in bits 30:0 (R125). -/
theorem State.usrAt_low (s : State) (k : Nat) : (s.usrAt k).extractLsb' 0 31 = s.usr.extractLsb' 0 31 := by
  have hpfa : (if s.pfaAt k then 0x80000000#32 else 0#32).extractLsb' 0 31 = 0#31 := by
    split <;> decide
  rw [State.usrAt, BitVec.extractLsb'_or, BitVec.extractLsb'_and, hpfa,
    show (0x7FFFFFFF#32).extractLsb' 0 31 = BitVec.allOnes 31 by decide, BitVec.and_allOnes, BitVec.or_zero]

/-- Bit 31 of USR reads as the prefetch engine's draw (R33, R125). -/
theorem State.usrAt_pfa (s : State) (k : Nat) : (s.usrAt k).getLsbD 31 = s.pfaAt k := by
  cases hp : s.pfaAt k <;> simp [State.usrAt, hp]

theorem State.pfaAt_closed {s : State} (h : s.prefetchOpen = false) (k : Nat) : s.pfaAt k = false := by
  simp [State.pfaAt, h]

/-- The engine after a completed read of USR is what the read returned (D20). -/
theorem State.noteRead_usr_prefetchOpen (s : State) (n k : Nat) : ((s.retire n).noteRead s k .usr).prefetchOpen = s.pfaAt k := by
  simp [State.noteRead, State.pfaAt]

/-! ### Reserved numbers (R25) -/

theorem CReg.isReserved_of_num {c : CReg} (h : c.num = 5 ∨ (20 ≤ c.num ∧ c.num ≤ 29)) : c.isReserved = true := by
  revert h
  cases c <;> decide

theorem State.readC_reserved (s : State) (k : Nat) {c : CReg} (h : c.isReserved = true) :
    s.readC k c = .refused (.reservedControl c) := by
  cases c <;> first | rfl | cases h

theorem State.writeC_reserved (s : State) {c : CReg} (h : c.isReserved = true) (v : Word) :
    s.writeC c v = .refused (.reservedControl c) := by
  cases c <;> first | rfl | cases h

/-- The pairs with a reserved half: their odd register is reserved, and so is the even one but for C4. -/
theorem reserved_pair {c : CReg} (h : c.num ∈ ([4, 20, 22, 24, 26, 28] : List (Fin 32))) :
    evenCReg c = true ∧ (oddOfC c).isReserved = true ∧ (c = .p30 ∨ c.isReserved = true) := by
  revert h
  cases c <;> decide

/-- A read of such a pair asks its odd half first. -/
theorem State.readCC_reserved (s : State) (k : Nat) {c : CReg} (h : (oddOfC c).isReserved = true) :
    s.readCC k c = .refused (.reservedControl (oddOfC c)) := by
  rw [State.readCC, State.readC_reserved s k h, andThen_refused]

/-- A write of such a pair asks its even half first. -/
theorem State.writeCC_reserved (s : State) {c : CReg} (h : (oddOfC c).isReserved = true) (hlow : c = .p30 ∨ c.isReserved = true)
    (v : DWord) : ∃ x, s.writeCC c v = .refused (.reservedControl x) := by
  rcases hlow with rfl | hlow
  · exact ⟨oddOfC .p30, State.writeC_reserved (s.setPreds (v.extractLsb' 0 32)) h (v.extractLsb' 32 32)⟩
  · exact ⟨c, by rw [State.writeCC, State.writeC_reserved s hlow, andThen_refused]⟩

/-! ### PKTCOUNT written (R60, D11) -/

/-- The state with another packet count. -/
def State.setCount (s : State) (n : DWord) : State := { s with pktcount := n }

@[simp] theorem State.setCount_pktcount (s : State) (n : DWord) : (s.setCount n).pktcount = n := rfl

theorem State.writeC_pktcountLo {s : State} (h : s.pktcountAccess = true) (v : Word) :
    s.writeC .pktcountLo v = .next (s.setCount (s.pktcount.extractLsb' 32 32 ++ v)) := if_pos h

theorem State.writeC_pktcountHi {s : State} (h : s.pktcountAccess = true) (v : Word) :
    s.writeC .pktcountHi v = .next (s.setCount (v ++ s.pktcount.extractLsb' 0 32)) := if_pos h

/-- With access disabled a write of either half is refused (R61). -/
theorem State.writeC_pktcount_disabled {s : State} (h : s.pktcountAccess = false) (v : Word) :
    s.writeC .pktcountLo v = .refused .pktcountWriteDisabled ∧ s.writeC .pktcountHi v = .refused .pktcountWriteDisabled := by
  simp [State.writeC, h]

/-- A 64-bit write of PKTCOUNT stores exactly the source (R128). -/
theorem exec_cddRss_pktcount {r : Reg} {s : State} (hs : s.pktcountAccess = true) (hr : evenReg r = true) :
    ∃ t, exec (.cddRss .pktcountLo r) s = .next t ∧ t.pktcount = s.getR (oddOf r) ++ s.getR r := by
  have hlo := State.writeC_pktcountLo (s := s.retire 1) hs (s.getR r)
  have hhi := State.writeC_pktcountHi (s := (s.retire 1).setCount ((s.retire 1).pktcount.extractLsb' 32 32 ++ s.getR r)) hs
    (s.getR (oddOf r))
  refine ⟨_, exec_cddRss_eq_next.mpr ⟨rfl, hr, _, hlo, hhi⟩, ?_⟩
  rw [State.setCount_pktcount, State.setCount_pktcount, extract_low_append]

end Sys2Proof.Machine
end

section
/-! The statements about single transfers. -/

namespace Sys2Proof.Proofs

open Sys2Proof.Machine Sys2Proof.Claims

/-- Settles O13: the read table answers what the spec fixes. -/
theorem rdCsCopiesControl : Obligations.RdCsCopiesControl := by
  intro d c s v h
  obtain ⟨t, ht, hv⟩ := exec_rdCs_getR (State.readC_fixed h 0) d
  exact ⟨t, ht, hv, exec_rdCs_transfers ht (ne_usr_of_fixedRead h)⟩

/-- Settles O14: the read is the stored word with the engine's draw in bit 31, and the engine becomes that draw. -/
theorem rdCsReadsUsr : Obligations.RdCsReadsUsr := by
  intro d s
  have h : exec (.rdCs d .usr) s = .next (((s.retire 1).noteRead s 0 .usr).setR d (s.usrAt 0)) := exec_rdCs rfl
  refine ⟨_, h, ?_, fun hp => ?_, ?_, exec_frame h (by simp [destsOf]) (by simp [destsOf]),
    exec_counted h (by simp [destsOf]) (by simp [destsOf]), exec_pc h⟩
  · rw [State.getR_setR_self, State.usrAt_low]
  · rw [State.getR_setR_self, State.usrAt_pfa, State.pfaAt_closed hp]
  · rw [State.setR_prefetchOpen, State.noteRead_usr_prefetchOpen, State.getR_setR_self, State.usrAt_pfa]

/-- Settles O15: the read answers, whatever the draw. -/
theorem rdCsReadsRunningCounter : Obligations.RdCsReadsRunningCounter := by
  intro d c s hc
  have hcounter : c.isReserved = false ∧ c ≠ .usr := by
    rcases hc with ⟨rfl | rfl, -⟩ | ⟨rfl | rfl, -⟩ <;> decide
  obtain ⟨hnamed, hne⟩ := hcounter
  obtain ⟨v, hv⟩ := (s.readC_answers 0 c).mpr hnamed
  exact ⟨_, exec_rdCs hv, exec_rdCs_transfers (exec_rdCs hv) hne⟩

/-- Settles O16: a read of a pair asks its odd half first, a write its even half. -/
theorem reservedNumbersAreRefused : Obligations.ReservedNumbersAreRefused := by
  intro r c s
  refine ⟨fun hc => ?_, fun hc hr => ?_⟩
  · have h := CReg.isReserved_of_num hc
    constructor
    · simp only [exec, execRdCs, moveRdCs, State.readC_reserved s 0 h, andThen_refused]
    · rw [exec_cdRs, State.writeC_reserved _ h]
  · obtain ⟨heven, hodd, hlow⟩ := reserved_pair hc
    constructor
    · exact ⟨oddOfC c, by rw [exec_rddCss_even hr heven, State.readCC_reserved s 0 hodd, andThen_refused]⟩
    · rw [exec_cddRss_even heven hr]
      exact State.writeCC_reserved _ hodd hlow _

/-- Settles O17, by the row of the write table on the completed state. -/
theorem cdRsStoresPlainControl : Obligations.CdRsStoresPlainControl := by
  intro c r s hc
  obtain ⟨t, ht, hv⟩ := State.writeC_plain (s.retire 1) hc (s.getR r)
  refine ⟨t, ht, hv, exec_cdRs_transfers (exec_cdRs c r s ▸ ht) ?_ ?_⟩ <;> rintro rfl <;> revert hc <;> decide

/-- Settles O19: the write table asks for HFI first and then writes under R44's mask. -/
theorem cdRsWritesUsrThroughItsMask : Obligations.CdRsWritesUsrThroughItsMask := by
  intro r s
  refine ⟨fun h => ?_, fun h => ?_⟩
  · have hv : hfiReserved (s.getR r) = true := by simp [hfiReserved, h]
    rw [exec_cdRs, State.writeC, if_pos hv]
  · have hv : ¬ hfiReserved (s.getR r) = true := by simpa [hfiReserved] using h
    have hx : exec (.cdRs .usr r) s = .next { s.retire 1 with usr := usrWrite s.usr (s.getR r) } := if_neg hv
    exact ⟨_, hx, rfl, exec_cdRs_transfers hx (by decide) (by decide)⟩

/-- Settles O20: a masked write on the fields inside and outside its mask. -/
theorem cdRsWritesGpAboveBitSix : Obligations.CdRsWritesGpAboveBitSix := fun r s =>
  ⟨_, exec_cdRs .gp r s, extract_masked_write_source (by decide) (by decide) s.gp (s.getR r),
    extract_masked_write_kept (by decide) (by decide) s.gp (s.getR r), exec_cdRs_transfers rfl (by decide) (by decide)⟩

/-- Settles O21: the packet is counted before the write, which replaces a half or both. -/
theorem packetCountWrites : Obligations.PacketCountWrites := by
  intro r s
  have hdests : ∀ c, Dest.control c ∈ destsOf (.cddRss .pktcountLo r) → c ∈ [] ∨ c = .pktcountLo ∨ c = .pktcountHi := by
    rintro c hc
    simpa [destsOf, show oddOfC .pktcountLo = .pktcountHi from rfl] using hc
  refine ⟨fun hs => ⟨?_, ?_, fun hr => ?_⟩, fun hs => ⟨?_, ?_, fun hr => ?_⟩⟩
  · have hx := (exec_cdRs .pktcountLo r s).trans (State.writeC_pktcountLo (s := s.retire 1) hs (s.getR r))
    exact ⟨_, _, hx, rfl, rfl, exec_frame hx (by simp [destsOf]) (by simp [destsOf]), exec_pc hx, exec_prefetchOpen hx rfl⟩
  · have hx := (exec_cdRs .pktcountHi r s).trans (State.writeC_pktcountHi (s := s.retire 1) hs (s.getR r))
    exact ⟨_, _, hx, rfl, rfl, exec_frame hx (by simp [destsOf]) (by simp [destsOf]), exec_pc hx, exec_prefetchOpen hx rfl⟩
  · obtain ⟨t, hx, hv⟩ := exec_cddRss_pktcount hs hr
    exact ⟨t, hx, hv, exec_frame hx (by simp [destsOf]) hdests, exec_pc hx, exec_prefetchOpen hx rfl⟩
  · exact (State.writeC_pktcount_disabled (s := s.retire 1) hs _).1
  · exact (State.writeC_pktcount_disabled (s := s.retire 1) hs _).2
  · rw [exec_cddRss_even rfl hr, State.writeCC, (State.writeC_pktcount_disabled (s := s.retire 1) hs _).1, andThen_refused]

/-- Settles O22: the rows of the write table, and for a pair one half that no write answers. -/
theorem readOnlyRegistersAreNotWritten : Obligations.ReadOnlyRegistersAreNotWritten := by
  intro r s
  refine ⟨rfl, rfl, rfl, rfl, rfl, fun c hc => exec_refused_of_not_next fun t ht => ?_⟩
  obtain ⟨-, -, u, hlo, hhi⟩ := exec_cddRss_eq_next.mp ht
  rcases hc with rfl | rfl | rfl <;> cases hhi

end Sys2Proof.Proofs
end

section
/-! SUPPORT. Two machines side by side: what a transfer does does not hang on the mode, nor on a packet count that it may not
access (R129, R131, D10). -/

namespace Sys2Proof.Machine

open Sys2Proof.Claims

/-! ### The mode and the packet count replaced -/

/-- The state with another mode and another packet count: what the two noninterference statements compare a state with. -/
def State.setModeCount (s : State) (m : Mode) (n : DWord) : State := { s with mode := m, pktcount := n }

/-- Two states that answer every read of a transfer alike. -/
structure SameReads (a b : State) : Prop where
  control : ∀ k c, b.readC k c = a.readC k c
  general : ∀ r, b.getR r = a.getR r
  pred : ∀ p, b.getP p = a.getP p
  prefetch : ∀ k, b.pfaAt k = a.pfaAt k

/-- No read hangs on the mode (R125, R131). -/
theorem sameReads_mode (s : State) (m : Mode) : SameReads s (s.setModeCount m s.pktcount) :=
  ⟨fun k c => by cases c <;> rfl, fun _ => rfl, fun _ => rfl, fun _ => rfl⟩

/-- No read hangs on the packet count while access to it is disabled (R61, D10). -/
theorem sameReads_count {s : State} (h : s.pktcountAccess = false) (m : Mode) (n : DWord) : SameReads s (s.setModeCount m n) := by
  refine ⟨fun k c => ?_, fun _ => rfl, fun _ => rfl, fun _ => rfl⟩
  cases c
  case pktcountLo | pktcountHi => simp [State.readC, State.setModeCount, h]
  all_goals rfl

theorem State.noteRead_setModeCount {s s' : State} (hs : SameReads s s') (acc : State) (m : Mode) (n : DWord) (k : Nat) (c : CReg) :
    (acc.setModeCount m n).noteRead s' k c = (acc.noteRead s k c).setModeCount m n := by
  by_cases hc : c = .usr
  · simp only [State.noteRead, if_pos hc, hs.prefetch]
    rfl
  · simp only [State.noteRead, if_neg hc]

theorem State.setR_setModeCount (s : State) (m : Mode) (n : DWord) (r : Reg) (v : Word) :
    (s.setModeCount m n).setR r v = (s.setR r v).setModeCount m n := rfl

theorem State.setRR_setModeCount (s : State) (m : Mode) (n : DWord) (r : Reg) (v : DWord) :
    (s.setModeCount m n).setRR r v = (s.setRR r v).setModeCount m n := rfl

/-- A write does the same whatever mode and count, and carries the count along unless it writes a half of it (R126). -/
theorem State.writeC_setModeCount {s t : State} {c : CReg} {v : Word} (h : s.writeC c v = .next t) (m : Mode) (n : DWord) :
    ∃ n', (s.setModeCount m n).writeC c v = .next (t.setModeCount m n') ∧
      (c ≠ .pktcountLo → c ≠ .pktcountHi → n' = n) := by
  cases c
  case pktcountLo =>
    simp only [State.writeC] at h
    split at h <;> cases h
    exact ⟨_, if_pos ‹_›, fun hlo => absurd rfl hlo⟩
  case pktcountHi =>
    simp only [State.writeC] at h
    split at h <;> cases h
    exact ⟨_, if_pos ‹_›, fun _ hhi => absurd rfl hhi⟩
  case usr =>
    simp only [State.writeC] at h
    split at h <;> cases h
    exact ⟨n, if_neg ‹_›, fun _ _ => rfl⟩
  all_goals cases h <;> exact ⟨n, rfl, fun _ _ => rfl⟩

/-- A transfer at any place of a packet does the same in any mode and with any count that it reads nothing of, and carries the
count along unless it names a half of it. -/
theorem applySlot_setModeCount {k : Nat} {i : Instr} {s s' acc t : State} (hs : SameReads s s') (h : applySlot k i s acc = .next t)
    (m : Mode) (n : DWord) :
    ∃ n', applySlot k i s' (acc.setModeCount m n) = .next (t.setModeCount m n') ∧
      (Dest.control .pktcountLo ∉ destsOf i → Dest.control .pktcountHi ∉ destsOf i → n' = n) := by
  cases i with
  | rdCs d c =>
    obtain ⟨v, hv, rfl⟩ := moveRdCs_eq_next.mp h
    refine ⟨n, moveRdCs_eq_next.mpr ⟨v, (hs.control k c).trans hv, ?_⟩, fun _ _ => rfl⟩
    rw [State.noteRead_setModeCount hs, State.setR_setModeCount]
  | cdRs c r =>
    obtain ⟨n', hw, hn⟩ := State.writeC_setModeCount (moveCdRs_eq_next.mp h) m n
    refine ⟨n', moveCdRs_eq_next.mpr (hs.general r ▸ hw), fun hlo hhi => hn ?_ ?_⟩
    · rintro rfl
      exact hlo (by simp [destsOf])
    · rintro rfl
      exact hhi (by simp [destsOf])
  | rddCss d c =>
    obtain ⟨hd, hc, high, low, hhigh, hlow, rfl⟩ := moveRddCss_eq_next.mp h
    refine ⟨n, moveRddCss_eq_next.mpr
      ⟨hd, hc, high, low, (hs.control k _).trans hhigh, (hs.control k c).trans hlow, ?_⟩, fun _ _ => rfl⟩
    rw [State.noteRead_setModeCount hs, State.setRR_setModeCount]
  | cddRss c r =>
    obtain ⟨hc, hr, u, hlow, hhigh⟩ := moveCddRss_eq_next.mp h
    obtain ⟨n1, hw1, hn1⟩ := State.writeC_setModeCount hlow m n
    obtain ⟨n2, hw2, hn2⟩ := State.writeC_setModeCount hhigh m n1
    refine ⟨n2, moveCddRss_eq_next.mpr ⟨hc, hr, _, hs.general r ▸ hw1, hs.general (oddOf r) ▸ hw2⟩, fun hlo hhi => ?_⟩
    simp only [destsOf, List.mem_cons, Dest.control.injEq, List.not_mem_nil, or_false, not_or] at hlo hhi
    rw [hn2 (Ne.symm hlo.2) (Ne.symm hhi.2), hn1 (Ne.symm hlo.1) (Ne.symm hhi.1)]
  | rdPs d p =>
    obtain rfl := moveRdPs_eq_next.mp h
    refine ⟨n, moveRdPs_eq_next.mpr ?_, fun _ _ => rfl⟩
    rw [hs.pred]
    rfl

/-! ### A count without access -/

/-- A write that answers with access to PKTCOUNT disabled is no write of it (R61). -/
theorem State.writeC_not_count {s t : State} {c : CReg} {v : Word} (h : s.writeC c v = .next t) (hs : s.pktcountAccess = false) :
    c ≠ .pktcountLo ∧ c ≠ .pktcountHi := by
  constructor <;> rintro rfl <;> simp [State.writeC, hs] at h

theorem State.writeC_pktcountAccess {s t : State} {c : CReg} {v : Word} (h : s.writeC c v = .next t) :
    t.pktcountAccess = s.pktcountAccess := by
  obtain ⟨-, -, -, -, -, -, -, -, -, hp, -⟩ := State.writeC_keeps h
  exact hp

/-- A transfer that completes with access to PKTCOUNT disabled names neither half as its destination. -/
theorem applySlot_not_count {k : Nat} {i : Instr} {s acc t : State} (h : applySlot k i s acc = .next t)
    (ha : acc.pktcountAccess = false) :
    Dest.control .pktcountLo ∉ destsOf i ∧ Dest.control .pktcountHi ∉ destsOf i := by
  cases i with
  | cdRs c r =>
    have hc := State.writeC_not_count (moveCdRs_eq_next.mp h) ha
    simpa [destsOf, eq_comm] using hc
  | cddRss c r =>
    obtain ⟨-, -, u, hlow, hhigh⟩ := moveCddRss_eq_next.mp h
    have hc := State.writeC_not_count hlow ha
    have hodd := State.writeC_not_count hhigh ((State.writeC_pktcountAccess hlow).trans ha)
    simp [destsOf, hc.1.symm, hc.2.symm, hodd.1.symm, hodd.2.symm]
  | rdCs | rddCss | rdPs => simp [destsOf]

theorem SlotEffect.pktcountAccess {dests : List Dest} {acc t : State} (h : SlotEffect dests acc t) :
    t.pktcountAccess = acc.pktcountAccess := by
  obtain ⟨-, -, -, -, hp, -⟩ := h.owned
  exact hp

theorem SlotEffect.mode {dests : List Dest} {acc t : State} (h : SlotEffect dests acc t) : t.mode = acc.mode := by
  obtain ⟨-, -, -, -, -, -, -, hm, -⟩ := h.owned
  exact hm

/-- The instructions of a packet that completes with access to PKTCOUNT disabled neither read the count nor write it. -/
theorem runSlots_setModeCount {k : Nat} {is : List Instr} {s s' acc t : State} (hs : SameReads s s')
    (h : runSlots k is s acc = .next t) (ha : acc.pktcountAccess = false) (m : Mode) (n : DWord) :
    t.pktcount = acc.pktcount ∧ runSlots k is s' (acc.setModeCount m n) = .next (t.setModeCount m n) := by
  induction is generalizing k acc with
  | nil =>
    cases h
    exact ⟨rfl, rfl⟩
  | cons i is ih =>
    obtain ⟨u, hu, hrest⟩ := runSlots_cons_eq_next.mp h
    obtain ⟨hlo, hhi⟩ := applySlot_not_count hu ha
    obtain ⟨n', hu', hn⟩ := applySlot_setModeCount hs hu m n
    obtain rfl := hn hlo hhi
    obtain ⟨hcount, hrun⟩ := ih hrest ((applySlot_effect hu).pktcountAccess.trans ha)
    exact ⟨hcount.trans ((applySlot_controlEffect hu).pktcount hlo hhi), runSlots_cons_eq_next.mpr ⟨_, hu', hrun⟩⟩

/-- A packet that completes with access to PKTCOUNT disabled counts from whatever the count is, and does nothing else with it. -/
theorem execPacket_setCount {is : List Instr} {s t : State} (ha : s.pktcountAccess = false)
    (h : execPacket is s = .next t) (n : DWord) :
    execPacket is (s.setCount n) = .next (t.setCount (n + (t.pktcount - s.pktcount))) := by
  obtain ⟨hne, hd, hrun⟩ := execPacket_eq_next.mp h
  have hmode : t.mode = s.mode := (execPacket_effect h).mode
  obtain ⟨hcount, hrun'⟩ := runSlots_setModeCount (sameReads_count ha s.mode n) hrun ha s.mode
    (n + (if s.counting then 1 else 0))
  have hinc : (if s.counting then (1 : DWord) else 0) = t.pktcount - s.pktcount := by
    rw [hcount, State.retire_pktcount, BitVec.add_comm, BitVec.add_sub_cancel]
  have ht : t.setModeCount s.mode (n + (if s.counting then 1 else 0)) = t.setCount (n + (t.pktcount - s.pktcount)) := by
    rw [State.setModeCount, ← hmode, ← hinc]
    rfl
  exact execPacket_eq_next.mpr ⟨hne, hd, ht ▸ hrun'⟩

/-! ### Disabled counters (R55, R61, R62, R131) -/

/-- A half of a counter without access reads 0. -/
theorem fixedRead_disabled {s : State} {c : CReg} (h : disabledCounter s c) : fixedRead s c = some 0 := by
  rcases h with ⟨rfl | rfl, h⟩ | ⟨rfl | rfl, h⟩ | ⟨rfl | rfl, h⟩ <;> simp [fixedRead, h]

/-- A counter's halves are disabled together. -/
theorem disabledCounter_oddOfC {s : State} {c : CReg} (hc : evenCReg c = true) (h : disabledCounter s c) :
    disabledCounter s (oddOfC c) := by
  rcases h with ⟨rfl | rfl, h⟩ | ⟨rfl | rfl, h⟩ | ⟨rfl | rfl, h⟩
  · exact .inl ⟨.inr rfl, h⟩
  · cases hc
  · exact .inr (.inl ⟨.inr rfl, h⟩)
  · cases hc
  · exact .inr (.inr ⟨.inr rfl, h⟩)
  · cases hc

/-- A half of a counter is not reserved, and neither is the other half. -/
theorem counter_not_reserved {c : CReg} (h : c ∈ counterControls) :
    c.isReserved = false ∧ (evenCReg c = true → (oddOfC c).isReserved = false) := by
  revert h
  cases c <;> decide

/-- A read of a counter answers, and answers 0 where access to it is disabled. -/
theorem State.readC_counter {s : State} {c : CReg} (h : c.isReserved = false) (k : Nat) :
    ∃ v, s.readC k c = .next v ∧ (disabledCounter s c → v = 0) := by
  obtain ⟨v, hv⟩ := (s.readC_answers k c).mpr h
  refine ⟨v, hv, fun hd => ?_⟩
  have h0 := State.readC_fixed (fixedRead_disabled hd) k
  simpa [hv] using h0

/-! ### One sample for a pair (R127) -/

/-- A pair read and the reads of its halves from one start sample the same instant (R127). -/
theorem rddCss_samples_as_halves {d e : Reg} {c : CReg} {s : State} (hd : evenReg d = true) (hc : evenCReg c = true)
    (hhigh : (oddOfC c).isReserved = false) (hlow : c.isReserved = false) (hne : c ≠ .usr) :
    ∃ t u v, exec (.rddCss d c) s = .next t ∧ exec (.rdCs e (oddOfC c)) s = .next u ∧ exec (.rdCs e c) s = .next v ∧
      t.getR (oddOf d) = u.getR e ∧ t.getR d = v.getR e ∧ Transfers s t [d, oddOf d] [] := by
  obtain ⟨hi, hhi⟩ := (s.readC_answers 0 (oddOfC c)).mpr hhigh
  obtain ⟨lo, hlo⟩ := (s.readC_answers 0 c).mpr hlow
  obtain ⟨t, ht, hthi, htlo⟩ := exec_rddCss_getR hd hc hhi hlo
  obtain ⟨u, hu, huv⟩ := exec_rdCs_getR hhi e
  obtain ⟨v, hv, hvv⟩ := exec_rdCs_getR hlo e
  exact ⟨t, u, v, ht, hu, hv, hthi.trans huv.symm, htlo.trans hvv.symm, exec_rddCss_transfers ht hne⟩

/-! ### USR after reset (log 5, 6) -/

/-- USR after reset on a field: the run's reserved bits under their mask, and FPCOPROC at its place. -/
theorem reset_usr_extract (i n : Nat) :
    State.reset.usr.extractLsb' i n =
      (Config.usrReserved.extractLsb' i n &&& usrReservedMask.extractLsb' i n) |||
        (Config.fpcoproc.zeroExtend 32 <<< 20).extractLsb' i n := by
  rw [← BitVec.extractLsb'_and, ← BitVec.extractLsb'_or]
  rfl

/-- FPCOPROC's value at its place in USR lies in bits 21:20 alone. -/
theorem fpcoproc_placed : ∀ b : BitVec 2,
    (b.zeroExtend 32 <<< 20).extractLsb' 15 2 = 0#2 ∧ (b.zeroExtend 32 <<< 20).extractLsb' 20 2 = b ∧
      (b.zeroExtend 32 <<< 20).extractLsb' 22 2 = 0#2 ∧ (b.zeroExtend 32 <<< 20) &&& usrReservedMask = 0#32 := by decide

end Sys2Proof.Machine
end

section
/-! The statements about pair forms, about the transfers together, and about reset. -/

namespace Sys2Proof.Proofs

open Sys2Proof.Machine Sys2Proof.Claims

/-- Settles O35: the packet of the step, run beside itself with another count. -/
theorem disabledPacketCountLeaksNothing : Obligations.DisabledPacketCountLeaksNothing := by
  intro s t n ha h
  obtain ⟨p, is, hf, hd, hrun⟩ := step_eq_next_packet.mp h
  exact step_eq_next_packet.mpr ⟨p, is, hf, hd, execPacket_setCount (s := { s with nextPc := p.next }) ha hrun n⟩

/-- Settles O23: both halves answer what the spec fixes. -/
theorem rddCssCopiesPair : Obligations.RddCssCopiesPair := by
  intro d c s hi lo hd hc hhi hlo
  obtain ⟨t, ht, hgets⟩ := exec_rddCss_getR hd hc (State.readC_fixed hhi 0) (State.readC_fixed hlo 0)
  exact ⟨t, ht, hgets.1, hgets.2, exec_rddCss_transfers ht (ne_usr_of_fixedRead hlo)⟩

/-- Settles O24: both reads are of the same start at the same sample. -/
theorem rddCssReadsPcAndUsr : Obligations.RddCssReadsPcAndUsr := by
  intro d s hd
  have ht : exec (.rddCss d .usr) s = .next (((s.retire 1).noteRead s 0 .usr).setRR d (s.pc ++ s.usrAt 0)) :=
    exec_rddCss hd rfl rfl rfl
  have hu : exec (.rdCs d .usr) s = .next (((s.retire 1).noteRead s 0 .usr).setR d (s.usrAt 0)) := exec_rdCs rfl
  refine ⟨_, _, ht, hu, ?_, ?_, rfl, exec_frame ht (by simp [destsOf]) (by simp [destsOf]),
    exec_counted ht (by simp [destsOf]) (by simp [destsOf]), exec_pc ht⟩
  · rw [State.getR_setRR_high, extract_high_append]
  · rw [State.getR_setRR_low, extract_low_append, State.getR_setR_self]

/-- Settles O25, for each of the two counters. -/
theorem rddCssSamplesCounterOnce : Obligations.RddCssSamplesCounterOnce := fun _ _ _ hd =>
  ⟨fun _ => rddCss_samples_as_halves hd rfl rfl rfl (by decide), fun _ => rddCss_samples_as_halves hd rfl rfl rfl (by decide)⟩

/-- Settles O26: the write of the odd half leaves the even one. -/
theorem cddRssStoresPlainPair : Obligations.CddRssStoresPlainPair := by
  intro c r s hc hr
  have hpair : evenCReg c = true ∧ c ∈ plainControls ∧ oddOfC c ∈ plainControls ∧
      CReg.pktcountLo ∉ [c, oddOfC c] ∧ CReg.pktcountHi ∉ [c, oddOfC c] := by
    revert hc
    cases c <;> decide
  obtain ⟨heven, hlow, hodd, hnlo, hnhi⟩ := hpair
  obtain ⟨u, hu, huv⟩ := State.writeC_plain (s.retire 1) hlow (s.getR r)
  obtain ⟨t, ht, htv⟩ := State.writeC_plain u hodd (s.getR (oddOf r))
  have hx : exec (.cddRss c r) s = .next t := exec_cddRss_eq_next.mpr ⟨heven, hr, u, hu, ht⟩
  exact ⟨t, hx, (State.writeC_stored_of_ne ht (oddOfC_ne c).symm).trans huv, htv, exec_cddRss_transfers hx hnlo hnhi⟩

/-- Settles O27: the row of UGP, then the masked write of GP. -/
theorem cddRssWritesGpAndUgp : Obligations.CddRssWritesGpAndUgp := by
  intro r s hr
  have hx := exec_cddRss_eq_next (c := .ugp).mpr ⟨rfl, hr, (s.retire 1).setUgp (s.getR r), rfl, rfl⟩
  exact ⟨_, hx, rfl, extract_masked_write_source (by decide) (by decide) s.gp _,
    extract_masked_write_kept (by decide) (by decide) s.gp _, exec_cddRss_transfers hx (by decide) (by decide)⟩

/-- Settles O28: both pair forms ask for even numbers first. -/
theorem oddPairsAreRefused : Obligations.OddPairsAreRefused := by
  intro r c s h
  rcases h with h | h <;> simp [exec, execRddCss, execCddRss, moveRddCss, moveCddRss, h]

/-- Settles O29: the zero extension on bits 7:0 and above. -/
theorem rdPsZeroExtendsPredicate : Obligations.RdPsZeroExtendsPredicate := by
  intro d p s
  have hx : exec (.rdPs d p) s = .next ((s.retire 1).setR d ((s.getP p).zeroExtend 32)) := rfl
  refine ⟨_, hx, ?_, ?_, exec_frame hx (by simp [destsOf]) (by simp [destsOf]),
    exec_counted hx (by simp [destsOf]) (by simp [destsOf]), exec_pc hx, rfl⟩
  · rw [State.getR_setR_self]
    exact BitVec.eq_of_getLsbD_eq fun i hi => by simp [hi, show i < 32 by omega]
  · rw [State.getR_setR_self]
    exact BitVec.eq_of_getLsbD_eq fun i hi => by simp

/-- Settles O31: the write stores the source, and a plain register reads as it is stored. -/
theorem writtenControlReadsBack : Obligations.WrittenControlReadsBack := by
  intro s t c r d hc h
  obtain ⟨t', ht', hv⟩ := State.writeC_plain (s.retire 1) hc (s.getR r)
  obtain rfl : t' = t := by simpa [exec_cdRs, ht'] using h
  exact hv ▸ exec_rdCs_getR (State.readC_plain t' 0 hc) d

/-- Settles O32: the write stores the pair, the next packet reads it and then counts. -/
theorem writtenPacketCountReadsBack : Obligations.WrittenPacketCountReadsBack := by
  intro s t r d hr hd h
  have hs : s.pktcountAccess = true := by
    obtain ⟨-, -, u, hlow, -⟩ := exec_cddRss_eq_next.mp h
    by_contra hoff
    exact (State.writeC_not_count hlow (by simpa using hoff)).1 rfl
  obtain ⟨t', ht', hcount⟩ := exec_cddRss_pktcount hs hr
  obtain rfl : t' = t := by simpa [ht'] using h
  have ht : t'.pktcountAccess = true := (exec_effect h).pktcountAccess.trans hs
  have hhi : t'.readC 0 .pktcountHi = .next (s.getR (oddOf r)) := by simp [State.readC, ht, hcount]
  have hlo : t'.readC 0 .pktcountLo = .next (s.getR r) := by simp [State.readC, ht, hcount]
  obtain ⟨u, hu, huhi, hulo⟩ := exec_rddCss_getR hd rfl hhi hlo
  refine ⟨u, hu, hulo, huhi, ?_⟩
  rw [(exec_controlEffect hu).pktcount (by simp [destsOf]) (by simp [destsOf]), State.retire_pktcount, hcount]
  rfl

/-- Settles O33: a transfer beside itself in another mode, and the reads of the counters by the read table. -/
theorem noTransferNeedsPrivilege : Obligations.NoTransferNeedsPrivilege := by
  intro i s t m n d e c
  refine ⟨fun h => ?_, fun hc => ?_⟩
  · rw [exec_eq_applySlot] at h
    obtain ⟨count, h', -⟩ := applySlot_setModeCount (sameReads_mode { s with mode := m } n) h n
      (State.retire { s with mode := n } 1).pktcount
    exact ⟨_, (exec_eq_applySlot i _).trans h', fun _ => rfl, fun x => by cases x <;> rfl⟩
  · obtain ⟨hlow, hodd⟩ := counter_not_reserved hc
    obtain ⟨lo, hlo, hlo0⟩ := State.readC_counter (s := { s with mode := m }) hlow 0
    refine ⟨?_, fun he hce => ?_⟩
    · obtain ⟨u, hu, huv⟩ := exec_rdCs_getR hlo d
      exact ⟨u, hu, fun hdis => huv.trans (hlo0 hdis)⟩
    · obtain ⟨hi, hhi, hhi0⟩ := State.readC_counter (s := { s with mode := m }) (hodd hce) 0
      obtain ⟨u, hu, huhi, hulo⟩ := exec_rddCss_getR he hce hhi hlo
      exact ⟨u, hu, fun hdis => ⟨huhi.trans (hhi0 (disabledCounter_oddOfC hce hdis)), hulo.trans (hlo0 hdis)⟩⟩

/-- Settles O36: a step never opens the engine, and a read of the closed engine draws 0. -/
theorem clearedPrefetchStaysClear : Obligations.ClearedPrefetchStaysClear := by
  intro s t d u hs
  refine ⟨step_prefetch_closed hs, fun h => ?_⟩
  have hread : exec (.rdCs d .usr) s = .next (((s.retire 1).noteRead s 0 .usr).setR d (s.usrAt 0)) := exec_rdCs rfl
  obtain rfl := Host.Outcome.next.inj (hread.symm.trans h)
  rw [State.getR_setR_self, State.usrAt_pfa, State.pfaAt_closed hs]

/-! ### Reset -/

/-- Settles O38: HFI lies outside both parts of USR, and the reserved bits and FPCOPROC in one part each. -/
theorem resetIsWellFormed : Obligations.ResetIsWellFormed := by
  obtain ⟨hhfi, hfp, -, hmask⟩ := fpcoproc_placed Config.fpcoproc
  refine ⟨rfl, ?_, ?_, ?_, ?_⟩
  · have h : State.reset.usr.extractLsb' 15 2 = 0#2 := by
      rw [reset_usr_extract, hhfi, show usrReservedMask.extractLsb' 15 2 = 0#2 by decide, BitVec.and_zero, BitVec.or_zero]
    rw [hfiReserved, h]
    rfl
  · have h : State.reset.usr = (Config.usrReserved &&& usrReservedMask) ||| (Config.fpcoproc.zeroExtend 32 <<< 20) := rfl
    rw [h, BitVec.and_comm, BitVec.and_or_distrib_left, BitVec.and_comm usrReservedMask, BitVec.and_comm usrReservedMask, hmask,
      BitVec.or_zero, BitVec.and_assoc, BitVec.and_self]
  · rw [reset_usr_extract, hfp, show usrReservedMask.extractLsb' 20 2 = 0#2 by decide, BitVec.and_zero, BitVec.zero_or]
  · have h : State.reset.gp = Config.gpReserved.zeroExtend 32 := rfl
    rw [h]
    exact BitVec.eq_of_getLsbD_eq fun i hi => by simp [hi, show i < 32 by omega]

/-- Settles O39: FPRND lies outside both parts of USR. -/
theorem resetLeavesStatedValues : Obligations.ResetLeavesStatedValues := by
  obtain ⟨-, -, hfprnd, -⟩ := fpcoproc_placed Config.fpcoproc
  refine ⟨rfl, ?_, rfl⟩
  rw [reset_usr_extract, hfprnd, show usrReservedMask.extractLsb' 22 2 = 0#2 by decide, BitVec.and_zero, BitVec.or_zero]

/-- Settles O42: the two parts of I by the halves of an appended word, then the neighbouring fields joined. -/
theorem circularSpecifierIsItsFields : Obligations.CircularSpecifierIsItsFields := by
  intro m
  have hhigh : (circI m).extractLsb' 7 4 = m.extractLsb' 28 4 := BitVec.extractLsb'_append_eq_left
  have hlow : (circI m).extractLsb' 0 7 = m.extractLsb' 17 7 := BitVec.extractLsb'_append_eq_right
  rw [hhigh, hlow, circLength, BitVec.extractLsb'_append_extractLsb'_eq_extractLsb' (by omega),
    BitVec.extractLsb'_append_extractLsb'_eq_extractLsb' (by omega),
    BitVec.extractLsb'_append_extractLsb'_eq_extractLsb' (by omega)]
  exact BitVec.extractLsb'_eq_self.symm

end Sys2Proof.Proofs
end

section
/-! SUPPORT. Memory: the bytes that a store leaves, what a load puts together from them, and canonical memories compared. -/

namespace Sys2Proof.Machine

/-! ### The bytes of a store -/

/-- Two bytes of one access have two addresses (R80). -/
theorem byteKey_injective {addr : Word} {i j : Nat} (hi : i < 4294967296) (hj : j < 4294967296)
    (h : byteKey addr i = byteKey addr j) : i = j := by
  have hword : addr + BitVec.ofNat 32 i = addr + BitVec.ofNat 32 j := BitVec.eq_of_toNat_eq h
  have hnat := congrArg BitVec.toNat (BitVec.add_right_inj addr |>.mp hword)
  rwa [BitVec.toNat_ofNat, BitVec.toNat_ofNat, Nat.mod_eq_of_lt hi, Nat.mod_eq_of_lt hj] at hnat

/-- Byte i of a store holds byte i of the value, the least significant first (R81). -/
theorem Mem.find_scatter_inside (addr : Word) (v : Nat) {n i : Nat} (m : Mem) (hi : i < n) (hn : n ≤ 4294967296) :
    Mem.find (byteKey addr i) (Mem.scatter addr v n m) = some (BitVec.ofNat 8 (v / 256 ^ i)) := by
  induction n with
  | zero => omega
  | succ n ih =>
    by_cases hin : i = n
    · subst hin
      exact Mem.find_put_self _ _ _
    · have hne : byteKey addr i ≠ byteKey addr n := fun h => hin (byteKey_injective (by omega) (by omega) h)
      rw [Mem.scatter, Mem.find_put_of_ne hne]
      exact ih (by omega) (by omega)

/-- Byte i of a value is its bits 8i+7 to 8i. -/
theorem ofNat_div_pow_eq_extract {w : Nat} (v : BitVec w) (i : Nat) :
    BitVec.ofNat 8 (v.toNat / 256 ^ i) = v.extractLsb' (8 * i) 8 := by
  apply BitVec.eq_of_toNat_eq
  rw [BitVec.toNat_ofNat, BitVec.extractLsb'_toNat, Nat.shiftRight_eq_div_pow, Nat.pow_mul]

/-! ### What a load puts together -/

/-- The next byte above the lowest n of a value gives its lowest n + 1. -/
theorem byte_append_low (v n : Nat) :
    (BitVec.ofNat 8 (v / 256 ^ n) ++ BitVec.ofNat (8 * n) v).cast (by omega) = BitVec.ofNat (8 * (n + 1)) v := by
  apply BitVec.eq_of_toNat_eq
  have hsplit : v % (2 ^ (8 * n) * 2 ^ 8) = v % 2 ^ (8 * n) + 2 ^ (8 * n) * (v / 2 ^ (8 * n) % 2 ^ 8) := Nat.mod_mul
  have hpow : (256 : Nat) ^ n = 2 ^ (8 * n) := by rw [Nat.pow_mul]
  rw [BitVec.toNat_cast, BitVec.toNat_append, BitVec.toNat_ofNat, BitVec.toNat_ofNat, BitVec.toNat_ofNat,
    ← Nat.shiftLeft_add_eq_or_of_lt (Nat.mod_lt _ (by positivity)), Nat.shiftLeft_eq, hpow, show 8 * (n + 1) = 8 * n + 8 by omega,
    Nat.pow_add, hsplit, Nat.mul_comm, Nat.add_comm]

/-- Where the bytes of a value stand, a load answers the value (R81). -/
theorem State.gather_of_bytes {s : State} {addr : Word} {v n : Nat}
    (h : ∀ i, i < n → s.byteAt (byteKey addr i) = some (BitVec.ofNat 8 (v / 256 ^ i))) :
    s.gather addr n = .next (BitVec.ofNat (8 * n) v) := by
  induction n with
  | zero => exact congrArg Host.Outcome.next (BitVec.eq_of_toNat_eq (by simp [Nat.mod_one]))
  | succ n ih =>
    simp only [State.gather, ih fun i hi => h i (by omega), andThen_next, h n (by omega)]
    exact congrArg Host.Outcome.next (byte_append_low v n)

/-- What is RAM hangs on the address map alone. -/
theorem State.ram_congr {s t : State} (h : t.addressMap = s.addressMap) (addr : Word) (n : Nat) : t.ram addr n = s.ram addr n := by
  induction n with
  | zero => rfl
  | succ n ih => rw [State.ram, State.ram, ih, h]

theorem State.gather_congr {s t : State} (h : t.mem = s.mem) (addr : Word) (n : Nat) : t.gather addr n = s.gather addr n := by
  induction n with
  | zero => rfl
  | succ n ih => rw [State.gather, State.gather, ih, State.byteAt, State.byteAt, h]

/-- A load hangs on memory and the address map alone. -/
theorem State.memRead_congr {s t : State} (hmem : t.mem = s.mem) (hmap : t.addressMap = s.addressMap) (addr : Word) (n : Nat) :
    t.memRead addr n = s.memRead addr n := by
  rw [State.memRead, State.memRead, State.checkAccess, State.checkAccess, State.ram_congr hmap, State.gather_congr hmem]

/-- A load after a store of the same width at the same address returns the stored value (D13). -/
theorem State.memRead_memWrite {s t : State} {addr : Word} {n : Nat} {v : BitVec (8 * n)} (hn : n ≤ 4294967296)
    (h : s.memWrite addr n v = .next t) : t.memRead addr n = .next v := by
  obtain ⟨haligned, hram, ht⟩ := State.memWrite_eq_next.mp h
  have hmap : t.addressMap = s.addressMap := by rw [ht]
  have hbytes : ∀ i, i < n → t.byteAt (byteKey addr i) = some (BitVec.ofNat 8 (v.toNat / 256 ^ i)) := by
    intro i hi
    rw [ht]
    exact Mem.find_scatter_inside addr v.toNat s.mem hi hn
  have hgather := State.gather_of_bytes hbytes
  rw [BitVec.ofNat_toNat, BitVec.setWidth_eq] at hgather
  exact State.memRead_eq_next.mpr ⟨haligned, (State.ram_congr hmap addr n).trans hram, hgather⟩

/-! ### Canonical memories -/

/-- Below the least address of a rising memory nothing is found. -/
theorem Mem.find_below {lo a : Nat} (ha : a < lo) {m : Mem} (hm : Mem.risingFrom lo m = true) : Mem.find a m = none := by
  induction m generalizing lo with
  | nil => rfl
  | cons c rest ih =>
    obtain ⟨b, w⟩ := c
    simp only [Mem.risingFrom, Bool.and_eq_true, decide_eq_true_eq] at hm
    rw [Mem.find, if_neg (by omega)]
    exact ih (by omega) hm.2

theorem Mem.find_head (a : Nat) (v : Byte) (rest : Mem) : Mem.find a ((a, v) :: rest) = some v := if_pos rfl

/-- Two rising memories that hold the same bytes are equal: each one's least address is the other's. -/
theorem Mem.eq_of_find {lo : Nat} {m m' : Mem} (hm : Mem.risingFrom lo m = true) (hm' : Mem.risingFrom lo m' = true)
    (h : ∀ a, Mem.find a m = Mem.find a m') : m = m' := by
  induction m generalizing lo m' with
  | nil =>
    cases m' with
    | nil => rfl
    | cons c rest => simpa [Mem.find] using h c.1
  | cons c rest ih =>
    obtain ⟨b, w⟩ := c
    cases m' with
    | nil => simpa [Mem.find] using h b
    | cons c' rest' =>
      obtain ⟨b', w'⟩ := c'
      have hb := h b
      have hb' := h b'
      simp only [Mem.risingFrom, Bool.and_eq_true, decide_eq_true_eq] at hm hm'
      obtain ⟨-, hrest⟩ := hm
      obtain ⟨-, hrest'⟩ := hm'
      rw [Mem.find_head] at hb hb'
      obtain rfl : b = b' := by
        rcases Nat.lt_trichotomy b b' with hlt | heq | hgt
        · rw [Mem.find, if_neg (by omega), Mem.find_below (by omega : b < b' + 1) hrest'] at hb
          cases hb
        · exact heq
        · rw [Mem.find, if_neg (by omega), Mem.find_below (by omega : b' < b + 1) hrest] at hb'
          cases hb'
      obtain rfl : w = w' := by simpa [Mem.find] using hb
      have htail : ∀ a, Mem.find a rest = Mem.find a rest' := by
        intro a
        by_cases ha : a = b
        · rw [ha, Mem.find_below (by omega : b < b + 1) hrest, Mem.find_below (by omega : b < b + 1) hrest']
        · simpa [Mem.find, ha] using h a
      rw [ih hrest hrest' htail]

/-! ### Refused accesses -/

/-- A refused access is a refused load and a refused store. -/
theorem State.access_refused {s : State} {addr : Word} {n : Nat} {r : Refusal} (h : s.checkAccess addr n = .refused r)
    (v : BitVec (8 * n)) : s.memRead addr n = .refused r ∧ s.memWrite addr n v = .refused r := by
  constructor
  · rw [State.memRead, h, andThen_refused]
  · rw [State.memWrite, h, andThen_refused]

end Sys2Proof.Machine
end

section
/-! The statements about memory. -/

namespace Sys2Proof.Proofs

open Sys2Proof.Machine Sys2Proof.Claims

/-- Settles O43: the store answers, and the load puts its bytes together again. -/
theorem storeThenLoadReturnsValue : Obligations.StoreThenLoadReturnsValue := by
  intro s addr n v hn haligned hram
  have h : s.memWrite addr n v = .next _ := State.memWrite_eq_next.mpr ⟨haligned, hram, rfl⟩
  exact ⟨_, h, State.memRead_memWrite (by omega) h⟩

/-- Settles O44, by the bytes inside and outside the store. -/
theorem storeWritesItsBytesLittleEndian : Obligations.StoreWritesItsBytesLittleEndian := by
  intro s t addr n v hn h
  obtain ⟨-, -, rfl⟩ := State.memWrite_eq_next.mp h
  refine ⟨fun i hi => ?_, fun a ha => Mem.find_scatter_outside addr v.toNat n s.mem ha⟩
  rw [← ofNat_div_pow_eq_extract]
  exact Mem.find_scatter_inside addr v.toNat s.mem hi (by omega)

/-- Settles O45, byte by byte. -/
theorem storeKeepsMemoryCanonical : Obligations.StoreKeepsMemoryCanonical := by
  intro s t addr n v hm h
  obtain ⟨-, -, rfl⟩ := State.memWrite_eq_next.mp h
  exact Mem.scatter_wf addr v.toNat n hm

/-- Settles O46, by induction on the two memories. -/
theorem canonicalMemoryIsDeterminedByItsBytes : Obligations.CanonicalMemoryIsDeterminedByItsBytes := by
  intro m m' hm hm' h
  simp only [Mem.wf, Bool.and_eq_true] at hm hm'
  exact Mem.eq_of_find hm.1 hm'.1 h

/-- Settles O47: the alignment is checked first, then the address map. -/
theorem badAccessesAreRefused : Obligations.BadAccessesAreRefused := by
  intro s addr n v
  refine ⟨fun haligned => State.access_refused ?_ v, fun haligned hram => State.access_refused ?_ v⟩
  · simp [State.checkAccess, haligned]
  · simp [State.checkAccess, haligned, hram]

end Sys2Proof.Proofs
end

section
/-! SUPPORT. Frames put together from the writes of a contract, and what the contracts' own operations do (R150 to R167). -/

namespace Sys2Proof.Claims

open Sys2Proof.Machine

/-! ### Frames, write by write -/

theorem Frame.trans {a b c : State} {gs gs' : List Reg} {cs cs' : List CReg} (h : Frame a b gs cs) (h' : Frame b c gs' cs') :
    Frame a c (gs ++ gs') (cs ++ cs') := by
  obtain ⟨⟨hu, hp, ht, hm⟩, hmode, hmap, halign, htext, hnext⟩ := h.owned
  obtain ⟨⟨hu', hp', ht', hm'⟩, hmode', hmap', halign', htext', hnext'⟩ := h'.owned
  refine ⟨fun r hr => ?_, fun x hx => ?_, h'.trapEnables.trans h.trapEnables,
    ⟨⟨hu'.trans hu, hp'.trans hp, ht'.trans ht, hm'.trans hm⟩, hmode'.trans hmode, hmap'.trans hmap, halign'.trans halign,
      htext'.trans htext, hnext'.trans hnext⟩, fun x => (h'.memory x).trans (h.memory x)⟩
  · rw [List.mem_append, not_or] at hr
    rw [h'.generals r hr.2, h.generals r hr.1]
  · rw [List.mem_append, not_or] at hx
    rw [h'.controls x hx.2, h.controls x hx.1]

/-- A packet's completion alone. -/
theorem retire_frame (s : State) : Frame s (s.retire 1) [] [] :=
  ⟨fun _ _ => rfl, fun c _ => stored_retire s 1 c, rfl, ⟨⟨rfl, rfl, rfl, rfl⟩, rfl, rfl, rfl, rfl, rfl⟩, fun _ => rfl⟩

theorem setR_frame (s : State) (r : Reg) (v : Word) : Frame s (s.setR r v) [r] [] :=
  ⟨fun q hq => State.getR_setR_of_ne s (fun h => hq (by simp [h])) v, fun c _ => stored_setR s r v c, rfl,
    ⟨⟨rfl, rfl, rfl, rfl⟩, rfl, rfl, rfl, rfl, rfl⟩, fun _ => rfl⟩

theorem setRR_frame (s : State) (r : Reg) (v : DWord) : Frame s (s.setRR r v) [r, oddOf r] [] :=
  (setR_frame s r _).trans (setR_frame _ (oddOf r) _)

theorem setOperand_frame (s : State) (d : GeneralOperand) (v : DWord) : Frame s (s.setOperand d v) d.regs [] := by
  cases d with
  | single r => exact setR_frame s r _
  | pair r => exact setRR_frame s r v

/-- A control register written, a half of PKTCOUNT being no part of a frame. -/
theorem writeC_frame {s t : State} {c : CReg} {v : Word} (h : s.writeC c v = .next t) : Frame s t [] [c] := by
  obtain ⟨hregs, -, hnext, -, -, -, -, htrap, hu, hp, hut, hup, hmode, hmem, hmap, halign, htext, -⟩ := State.writeC_keeps h
  exact ⟨fun r _ => by rw [State.getR, State.getR, hregs],
    fun x hx => State.writeC_stored_of_ne h (by simpa using hx), htrap,
    ⟨⟨hu, hp, hut, hup⟩, hmode, hmap, halign, htext, hnext⟩, fun a => congrArg (Mem.find a) hmem⟩

/-- USR written outside the write table. -/
theorem usr_frame (s : State) (u : Word) : Frame s { s with usr := u } [] [.usr] := by
  refine ⟨fun _ _ => rfl, fun c hc => ?_, rfl, ⟨⟨rfl, rfl, rfl, rfl⟩, rfl, rfl, rfl, rfl, rfl⟩, fun _ => rfl⟩
  cases c
  case usr => exact absurd (by decide) hc
  case p30 => exact stored_p30_congr rfl
  all_goals rfl

theorem setP_frame (s : State) (p : PReg) (v : Byte) : Frame s (s.setP p v) [] [.p30] := by
  refine ⟨fun _ _ => rfl, fun c hc => ?_, rfl, ⟨⟨rfl, rfl, rfl, rfl⟩, rfl, rfl, rfl, rfl, rfl⟩, fun _ => rfl⟩
  cases c
  case p30 => exact absurd (by decide) hc
  all_goals rfl

/-- The PC and the prefetch engine are no part of a frame. -/
theorem pc_prefetchOpen_frame (s : State) (a : Word) (b : Bool) : Frame s { s with pc := a, prefetchOpen := b } [] [] := by
  refine ⟨fun _ _ => rfl, fun c _ => ?_, rfl, ⟨⟨rfl, rfl, rfl, rfl⟩, rfl, rfl, rfl, rfl, rfl⟩, fun _ => rfl⟩
  cases c
  case p30 => exact stored_p30_congr rfl
  all_goals rfl

/-- A contract that completes the packet and then writes within a frame, the counter, the PC and the prefetch engine left to the
completion. -/
theorem transfers_of_frame {s t : State} {gs : List Reg} {cs : List CReg} (h : Frame (s.retire 1) t gs cs)
    (hcount : t.pktcount = (s.retire 1).pktcount) (hpc : t.pc = s.nextPc) (hpf : t.prefetchOpen = s.prefetchOpen) :
    Transfers s t gs cs :=
  ⟨(retire_frame s).trans h, counted_iff.mpr hcount, hpc, hpf⟩

end Sys2Proof.Claims

namespace Sys2Proof.Machine

open Sys2Proof.Claims

/-! ### The loop setup (R150, R151) -/

/-- A loop setup leaves every bit of USR but 9:8. -/
theorem usrSetLpcfge_and (w : Option (BitVec 2)) (u : Word) : usrSetLpcfge w u &&& 0xFFFFFCFF#32 = u &&& 0xFFFFFCFF#32 := by
  cases w with
  | none => rfl
  | some v =>
    have hv : ∀ v : BitVec 2, 0xFFFFFCFF#32 &&& (v.zeroExtend 32 <<< 8) = 0#32 := by decide
    rw [usrSetLpcfge, BitVec.and_comm, BitVec.and_or_distrib_left, hv, BitVec.or_zero, BitVec.and_comm, BitVec.and_assoc,
      BitVec.and_self]

/-- A loop setup writes bits 9:8 of USR with what the argument says, if anything. -/
theorem usrSetLpcfge_extract (w : Option (BitVec 2)) (u : Word) :
    (usrSetLpcfge w u).extractLsb' 8 2 = w.getD (u.extractLsb' 8 2) := by
  cases w with
  | none => rfl
  | some v =>
    have hv : ∀ v : BitVec 2, (v.zeroExtend 32 <<< 8).extractLsb' 8 2 = v := by decide
    rw [usrSetLpcfge, BitVec.extractLsb'_or, BitVec.extractLsb'_and, hv, show (0xFFFFFCFF#32).extractLsb' 8 2 = 0#2 by decide,
      BitVec.and_zero, BitVec.zero_or]
    rfl

/-! ### The stack (R152, R183) -/

theorem frameOutOfBounds_iff (o : FrameOpen) (s : State) :
    frameOutOfBounds o s = true ↔ s.frameLimit ≠ 0 ∧ (s.getR 29).toNat < s.frameLimit.toNat + o.size.toNat := by
  rw [frameOutOfBounds, Bool.and_eq_true, bne_iff_ne, decide_eq_true_iff]
  rfl

/-- A store never faults. -/
theorem State.memWrite_no_fault (s : State) (addr : Word) (n : Nat) (v : BitVec (8 * n)) (f : Fault) :
    s.memWrite addr n v ≠ .fault f := by
  unfold State.memWrite State.checkAccess
  split
  · split <;> simp
  · simp

/-- A frame within its bounds never raises. -/
theorem contractAllocframe_no_fault {o : FrameOpen} {s : State} (h : frameOutOfBounds o s = false) (f : Fault) :
    contractAllocframe o s ≠ .fault f := by
  intro hf
  rw [contractAllocframe, h, if_neg (by decide)] at hf
  rcases andThen_eq_fault.mp hf with hw | ⟨u, -, hu⟩
  · exact State.memWrite_no_fault _ _ _ _ _ hw
  · cases hu

/-- Where SP does not wrap, a frame's slot lies between the new SP and the old one (R85). -/
theorem frame_below_sp {sp : Word} (o : FrameOpen) (h : o.size.toNat ≤ sp.toNat) :
    (sp - o.size).toNat < sp.toNat ∧ (sp - o.size).toNat ≤ (sp - o.size + o.slot).toNat ∧
      (sp - o.size + o.slot).toNat + 4 ≤ sp.toNat := by
  have hslot := o.slotFits
  have hlt := sp.isLt
  have hsp : (sp - o.size).toNat = sp.toNat - o.size.toNat := BitVec.toNat_sub_of_le (BitVec.le_def.mpr h)
  have haddr : (sp - o.size + o.slot).toNat = sp.toNat - o.size.toNat + o.slot.toNat := by
    rw [BitVec.toNat_add, hsp, Nat.mod_eq_of_lt (by omega)]
  omega

/-! ### Status flags (R41, R42, R206) -/

/-- OVF is set if the instruction saturated and never cleared (R42). -/
theorem usrSaturate_ovf (saturated : Bool) (u : Word) : (usrSaturate saturated u).getLsbD 0 = (u.getLsbD 0 || saturated) := by
  cases saturated <;> simp [usrSaturate]

theorem usrSaturate_rest (saturated : Bool) (u : Word) : (usrSaturate saturated u).extractLsb' 1 31 = u.extractLsb' 1 31 := by
  cases saturated with
  | false => rfl
  | true =>
    rw [usrSaturate, if_pos rfl, BitVec.extractLsb'_or, show (1#32).extractLsb' 1 31 = 0#31 by decide, BitVec.or_zero]

/-- Sticky flag 1 + k is set if condition k is met and never cleared (R41). -/
theorem usrSticky_flag (met : BitVec 5) (u : Word) {k : Nat} (hk : k < 5) :
    (usrSticky met u).getLsbD (1 + k) = (u.getLsbD (1 + k) || met.getLsbD k) := by
  have h : ((met.zeroExtend 32 <<< 1 : Word)).getLsbD (1 + k) = met.getLsbD k := by
    simp [show 1 + k < 32 by omega]
  rw [usrSticky, BitVec.getLsbD_or, h]

theorem usrSticky_rest (met : BitVec 5) (u : Word) :
    (usrSticky met u).extractLsb' 6 26 = u.extractLsb' 6 26 ∧ (usrSticky met u).getLsbD 0 = u.getLsbD 0 := by
  have h : ∀ b : BitVec 5, (b.zeroExtend 32 <<< 1 : Word).extractLsb' 6 26 = 0#26 := by decide
  constructor
  · rw [usrSticky, BitVec.extractLsb'_or, h, BitVec.or_zero]
  · simp [usrSticky]

/-- An enable governs by its new value or by its old one (R206, D19). -/
theorem governingEnables_bit (s : State) {k : Nat} (hk : k < 5) :
    s.governingEnables.getLsbD k =
      if (Config.trapEnableIsNew s.envTick).getLsbD k then s.usr.getLsbD (25 + k) else s.trapEnables.getLsbD k := by
  simp only [State.governingEnables, usrTrapEnables, BitVec.getLsbD_or, BitVec.getLsbD_and, BitVec.getLsbD_not,
    BitVec.getLsbD_extractLsb', hk, decide_true, Bool.true_and]
  cases (Config.trapEnableIsNew s.envTick).getLsbD k <;> simp

/-- Where the new enables are those in effect, there is no choice (D19). -/
theorem governingEnables_of_eq {s : State} (h : s.trapEnables = usrTrapEnables s.usr) : s.governingEnables = s.trapEnables := by
  refine BitVec.eq_of_getLsbD_eq fun k hk => ?_
  have hbit : s.trapEnables.getLsbD k = s.usr.getLsbD (25 + k) := by
    rw [h, usrTrapEnables, BitVec.getLsbD_extractLsb']
    simp [hk]
  rw [governingEnables_bit s hk, hbit, ite_self]

/-! ### Floating point (R159, R182, R205) -/

/-- A floating-point instruction alone in its packet, whose conditions are met: it raises or writes (R182, R159). -/
theorem contractFloat_alone {conditions : RoundingMode → List DWord → BitVec 5} {result : RoundingMode → List DWord → DWord}
    {sources : List GeneralOperand} {d : GeneralOperand} {s : State} (hieee : usrIeee s.usr = true) (hd : d.named = true)
    (hsources : ∀ x ∈ sources, x.named = true) :
    contractFloat [] conditions result sources d s =
      let met := conditions (usrRounding s.usr) (sources.map s.getOperand)
      if met &&& s.governingEnables ≠ 0 then raise (.floatingPoint (met &&& s.governingEnables))
      else .next ({ s.retire 1 with usr := usrSticky met s.usr }.setOperand d
        (result (usrRounding s.usr) (sources.map s.getOperand))) := by
  have hall : sources.all GeneralOperand.named = true := List.all_eq_true.mpr hsources
  rw [contractFloat, List.any_nil, hieee, hd, hall]
  rfl

theorem State.setOperand_usr (s : State) (d : GeneralOperand) (v : DWord) : (s.setOperand d v).usr = s.usr := by cases d <;> rfl

/-- A floating-point result changes no state that a completion or the environment moves. -/
theorem State.setOperand_completion (s : State) (d : GeneralOperand) (v : DWord) :
    (s.setOperand d v).pktcount = s.pktcount ∧ (s.setOperand d v).pc = s.pc ∧
      (s.setOperand d v).prefetchOpen = s.prefetchOpen := by
  cases d <;> exact ⟨rfl, rfl, rfl⟩

theorem any_writesUsr (mates : List Instr) : mates.any writesUsr = true ↔ ∃ i ∈ mates, Dest.control .usr ∈ destsOf i := by
  simp [writesUsr]

/-! ### Loads (R160 to R165) -/

/-- A load whose form writes no pointer answers what is loaded into its destination. -/
theorem contractLoad_of_no_pointer {w : Width} {d : Reg} {m : AddrMode} {o : LoadOpen} {s : State}
    (hp : pointerUpdate m o s = none) (hc : circularAllowed m s = true) :
    contractLoad w d m o s = loadInto w d (loadAddress m o s) o.fill s (s.retire 1) := by
  rw [contractLoad, hp, hc]
  cases h : loadInto w d (loadAddress m o s) o.fill s (s.retire 1) <;> simp [State.setPointer]

/-- A load whose destination is its pointer is refused, at any width (U21). -/
theorem contractLoad_into_pointer {w : Width} {d rx : Reg} {p : Word} {m : AddrMode} {o : LoadOpen} {s : State}
    (hp : pointerUpdate m o s = some (rx, p)) (hd : d = rx ∨ (w = .double ∧ oddOf d = rx)) :
    contractLoad w d m o s = .refused .doubleWrite := by
  have hmem : rx ∈ loadDests w d := by
    rcases hd with rfl | ⟨rfl, rfl⟩
    · cases w <;> simp [loadDests]
    · simp [loadDests]
  rw [contractLoad, hp, if_pos (by simpa using hmem)]

/-- A word load through a pointer apart from its destination changes both, and nothing else. -/
theorem contractLoad_word_through_pointer {d rx : Reg} {p : Word} {m : AddrMode} {o : LoadOpen} {s : State} {v : BitVec (8 * 4)}
    (hp : pointerUpdate m o s = some (rx, p)) (hc : circularAllowed m s = true) (hd : d ≠ rx)
    (hv : s.memRead (loadAddress m o s) 4 = .next v) :
    ∃ t, contractLoad .word d m o s = .next t ∧ t.getR d = v ∧ t.getR rx = p ∧ Transfers s t [d, rx] [] := by
  have hnot : (pointerUpdate m o s).any (fun q => (loadDests .word d).contains q.1) = false := by
    simp [hp, loadDests, Ne.symm hd]
  have h : contractLoad .word d m o s = .next (((s.retire 1).setR d v).setR rx p) :=
    contractLoad_eq_next.mpr ⟨hnot, hc, _, loadInto_word_eq_next.mpr ⟨v, hv, rfl⟩, by rw [hp]; rfl⟩
  refine ⟨_, h, ?_, State.getR_setR_self _ rx p, ?_⟩
  · rw [State.getR_setR_of_ne _ hd.symm, State.getR_setR_self]
  · exact transfers_of_frame ((setR_frame _ d v).trans (setR_frame _ rx p)) rfl rfl rfl

/-- A circular pointer moves by its increment wherever that keeps it inside its buffer (R162). -/
theorem circularPointer_of_inside {wrap : CircularOperands → Word} {c : CircularOperands}
    (h : c.inside (c.pointer + c.increment) = true) : circularPointer wrap c = c.pointer + c.increment := if_pos h

theorem CircularOperands.inside_iff (c : CircularOperands) (a : Word) :
    c.inside a = true ↔ (a - c.start).toNat < c.length.toNat := decide_eq_true_iff

end Sys2Proof.Machine
end

section
/-! The statements about the register-side contracts. -/

namespace Sys2Proof.Proofs

open Sys2Proof.Machine Sys2Proof.Claims

/-! ### Program flow and the stack -/

/-- Settles O48: two rows of the write table and USR. -/
theorem loopSetupWritesItsRegisters : Obligations.LoopSetupWritesItsRegisters := by
  intro start lpcfge r s
  constructor
  · refine ⟨_, rfl, rfl, rfl, usrSetLpcfge_and lpcfge s.usr, usrSetLpcfge_extract lpcfge s.usr,
      transfers_of_frame ?_ rfl rfl rfl⟩
    exact (writeC_frame (c := .lc0) (v := s.getR r) rfl).trans ((writeC_frame (c := .sa0) (v := start) rfl).trans (usr_frame _ _))
  · refine ⟨_, rfl, rfl, rfl, usrSetLpcfge_and lpcfge s.usr, usrSetLpcfge_extract lpcfge s.usr,
      transfers_of_frame ?_ rfl rfl rfl⟩
    exact (writeC_frame (c := .lc1) (v := s.getR r) rfl).trans ((writeC_frame (c := .sa1) (v := start) rfl).trans (usr_frame _ _))

/-- Settles O49: LR is written, and then the PC, which no frame speaks of. -/
theorem callLinksAndJumps : Obligations.CallLinksAndJumps := by
  intro target s
  have hframe : Frame s { (s.retire 1).setR regLR s.nextPc with pc := target } [31] [] :=
    (retire_frame s).trans ((setR_frame _ 31 s.nextPc).trans (pc_prefetchOpen_frame _ target s.prefetchOpen))
  exact ⟨_, rfl, State.getR_setR_self (s.retire 1) 31 s.nextPc, rfl, hframe, counted_iff.mpr rfl, rfl⟩

/-- Settles O50: the store of the slot, then the completion with SP and FP written. -/
theorem allocframeScramblesAndChecks : Obligations.AllocframeScramblesAndChecks := by
  intro o s
  have hinside : s.frameLimit = 0 ∨ s.frameLimit.toNat + o.size.toNat ≤ (s.getR 29).toNat → frameOutOfBounds o s = false := by
    intro h
    rw [← Bool.not_eq_true, frameOutOfBounds_iff]
    rintro ⟨hlimit, hlow⟩
    exact (h.resolve_left hlimit).not_gt hlow
  refine ⟨fun h => ?_, fun h haligned hram => ?_, fun h => contractAllocframe_no_fault (hinside (.inl h)) _⟩
  · rw [contractAllocframe, (frameOutOfBounds_iff o s).mpr h]
    rfl
  · obtain ⟨u, hu⟩ : ∃ u, s.memWrite (s.getR 29 - o.size + o.slot) 4 s.scrambledReturn = .next u :=
      ⟨_, State.memWrite_eq_next.mpr ⟨haligned, hram, rfl⟩⟩
    have hread := State.memRead_memWrite (by omega) hu
    have hrun := contractAllocframe_eq_next.mpr ⟨hinside h, u, hu, rfl⟩
    have hframe : Frame u (((u.retire 1).setR regSP (frameSp o s)).setR regFP (frameSp o s + o.fp)) [29, 30] [] :=
      (retire_frame u).trans ((setR_frame _ 29 _).trans (setR_frame _ 30 _))
    have hsp : (((u.retire 1).setR regSP (frameSp o s)).setR regFP (frameSp o s + o.fp)).getR 29 = s.getR 29 - o.size :=
      (State.getR_setR_of_ne _ (by decide) _).trans (State.getR_setR_self _ _ _)
    obtain ⟨-, -, hmem⟩ := State.memWrite_eq_next.mp hu
    subst hmem
    refine ⟨_, hrun, (State.memRead_congr rfl rfl _ _).trans hread, hsp, State.getR_setR_self _ _ _, fun hsize => ?_,
      fun r h29 h30 => hframe.generals r (by simp [h29, h30]), fun c => ?_, counted_iff.mpr rfl, rfl, rfl,
      ⟨hframe.owned.switches, hframe.owned.mode, hframe.owned.platform⟩, rfl, fun a ha => ?_⟩
    · rw [hsp]
      exact frame_below_sp o hsize
    · rw [hframe.controls c (by simp), stored_mem]
    · rw [hframe.memory a]
      exact Mem.find_scatter_outside _ _ 4 s.mem ha

/-! ### Compare, arithmetic and vector instructions -/

/-- Settles O54: the sum of two words is the sum modulo 2^32. -/
theorem addWrapsAndSetsNoFlag : Obligations.AddWrapsAndSetsNoFlag := by
  intro d rs rt imm s
  constructor
  · refine ⟨_, rfl, ?_, transfers_of_frame (setR_frame _ d _) rfl rfl rfl⟩
    rw [State.getR_setR_self, BitVec.toNat_add]
  · refine ⟨_, rfl, ?_, transfers_of_frame (setR_frame _ d _) rfl rfl rfl⟩
    rw [State.getR_setR_self, BitVec.toNat_add]

/-- Settles O51: the halves of an appended result, and OVF as the sticky flag. -/
theorem vectorResultsAndStickySaturation : Obligations.VectorResultsAndStickySaturation := by
  intro element halves align d rs rt s
  refine ⟨?_, fun hd hs ht => ⟨?_, ?_⟩, fun h => ?_⟩
  · refine ⟨_, rfl, ?_, ?_, transfers_of_frame (setR_frame _ d _) rfl rfl rfl⟩
    · rw [State.getR_setR_self]
      exact BitVec.extractLsb'_append_eq_right
    · rw [State.getR_setR_self]
      exact BitVec.extractLsb'_append_eq_left
  · refine ⟨_, if_pos (by simp [hd, hs, ht]), ?_, ?_, ?_, usrSaturate_rest _ s.usr,
      transfers_of_frame ((usr_frame _ _).trans (setRR_frame _ d _)) rfl rfl rfl⟩
    · rw [State.getR_setRR_low, extract_low_append]
    · rw [State.getR_setRR_high, extract_high_append]
    · rw [State.setRR_usr, usrSaturate_ovf, Bool.or_assoc]
  · refine ⟨_, if_pos (by simp [hd, hs, ht]), ?_, transfers_of_frame (setRR_frame _ d _) rfl rfl rfl⟩
    rw [State.getR_setRR_low, State.getR_setRR_high, append_extract_halves]
    rfl
  · rcases h with h | h | h <;> simp [contractVaddwSat, contractValignb, h]

/-- Settles O55: the predicate holds one of the two patterns, which the jump's test tells apart. -/
theorem compareThenJumpFollowsEquality : Obligations.CompareThenJumpFollowsEquality := by
  intro yes no holds p rs rt target n s hyes hno
  have hp : ((s.retire 1).setP p (if s.getR rs = s.getR rt then yes else no)).getP p =
      if s.getR rs = s.getR rt then yes else no := by simp [State.getP_setP]
  refine ⟨_, _, rfl, rfl, hp, fun q hq => ?_, transfers_of_frame (setP_frame _ p _) rfl rfl rfl, ?_, ?_, ?_, rfl⟩
  · simp [State.getP_setP, Ne.symm hq]
  · have hjump : (if holds (((s.retire 1).setP p (if s.getR rs = s.getR rt then yes else no)).getP p) then target else n) =
        if s.getR rs = s.getR rt then target else n := by
      rw [hp]
      by_cases heq : s.getR rs = s.getR rt
      · simp [heq, hyes]
      · simp [heq, hno]
    exact hjump
  · exact (retire_frame _).trans (pc_prefetchOpen_frame _ _ _)
  · exact counted_iff.mpr rfl

/-! ### Floating point -/

/-- Settles O52: by the governing enables, bit by bit. -/
theorem floatingPointRaisesOrSetsFlags : Obligations.FloatingPointRaisesOrSetsFlags := by
  intro conditions result sources d s met v hieee hd hsources hmet hv
  have hrun := contractFloat_alone (conditions := conditions) (result := result) hieee hd hsources
  simp only [usrRounding, ← hmet, ← hv] at hrun
  constructor
  · rintro ⟨k, hk, hm, hold, hnew⟩
    have hbit : (met &&& s.governingEnables).getLsbD k = true := by
      rw [BitVec.getLsbD_and, hm, governingEnables_bit s hk, hold, hnew, ite_self, Bool.true_and]
    have hne : met &&& s.governingEnables ≠ 0 := by
      intro h0
      rw [h0] at hbit
      simp at hbit
    exact ⟨_, hrun.trans (if_pos hne)⟩
  · intro hnone
    have hzero : met &&& s.governingEnables = 0 := by
      refine BitVec.eq_of_getLsbD_eq fun k hk => ?_
      rw [BitVec.getLsbD_and]
      cases hm : met.getLsbD k with
      | false => simp
      | true =>
        obtain ⟨hold, hnew⟩ := hnone k hk hm
        rw [governingEnables_bit s hk, hold, hnew, ite_self]
        simp
    obtain ⟨hrest, hovf⟩ := usrSticky_rest met s.usr
    obtain ⟨hcount, hpc, hpf⟩ := State.setOperand_completion { s.retire 1 with usr := usrSticky met s.usr } d v
    refine ⟨_, hrun.trans (if_neg (by simp [hzero])), ?_, fun k hk => ?_, ?_, ?_,
      transfers_of_frame ((usr_frame _ _).trans (setOperand_frame _ d v)) hcount hpc hpf⟩
    · cases d with
      | single r => exact State.getR_setR_self _ r _
      | pair r => exact ⟨State.getR_setRR_low _ r v, State.getR_setRR_high _ r v⟩
    · rw [State.setOperand_usr, usrSticky_flag met s.usr hk]
    · rw [State.setOperand_usr, hrest]
    · rw [State.setOperand_usr, hovf]

/-- Settles O53, the conditions in the order in which the contract asks for them. -/
theorem floatingPointNeedsItsConditions : Obligations.FloatingPointNeedsItsConditions := by
  intro mates conditions result sources d q s
  refine ⟨fun i hi husr => ?_, fun hmates => ?_⟩
  · rw [contractFloat, if_pos ((any_writesUsr mates).mpr ⟨i, hi, husr⟩)]
  · have hnone : ¬ mates.any writesUsr = true := by
      rw [any_writesUsr]
      rintro ⟨i, hi, husr⟩
      exact hmates i hi husr
    refine ⟨fun hfp => ?_, fun hfp hodd hq => ?_⟩
    · rw [contractFloat, if_neg hnone, if_pos (by simp [usrIeee, hfp])]
    · have hnamed : (d.named && sources.all GeneralOperand.named) = false := by
        rcases hq with rfl | hq
        · simp [GeneralOperand.named, hodd]
        · rw [Bool.and_eq_false_iff]
          exact .inr (List.all_eq_false.mpr ⟨_, hq, by simp [GeneralOperand.named, hodd]⟩)
      rw [contractFloat, if_neg hnone, if_neg (by simp [usrIeee, hfp]), if_pos (by simp [hnamed])]

/-! ### Loads -/

/-- Settles O58: neither form writes a pointer, so the load is what goes into its destination. -/
theorem loadsReachTheirAddress : Obligations.LoadsReachTheirAddress := by
  intro d rs offset ea m o s hm
  have hform : pointerUpdate m o s = none ∧ circularAllowed m s = true ∧ loadAddress m o s = ea := by
    rcases hm with ⟨rfl, rfl⟩ | ⟨rfl, rfl⟩ <;> exact ⟨rfl, rfl, rfl⟩
  obtain ⟨hp, hc, ha⟩ := hform
  have hload : ∀ w, contractLoad w d m o s = loadInto w d ea o.fill s (s.retire 1) := fun w =>
    ha ▸ contractLoad_of_no_pointer hp hc
  refine ⟨fun v hv => ?_, fun v hv => ?_, fun v hv => ?_, fun hd v hv => ?_, fun hd => ?_⟩
  · refine ⟨_, (hload .byte).trans (loadInto_byte_eq_next.mpr ⟨v, hv, rfl⟩), ?_, ?_,
      transfers_of_frame (setR_frame _ d _) rfl rfl rfl⟩
    · rw [State.getR_setR_self]
      exact BitVec.extractLsb'_append_eq_right
    · rw [State.getR_setR_self]
      exact BitVec.extractLsb'_append_eq_left
  · refine ⟨_, (hload .half).trans (loadInto_half_eq_next.mpr ⟨v, hv, rfl⟩), ?_, ?_,
      transfers_of_frame (setR_frame _ d _) rfl rfl rfl⟩
    · rw [State.getR_setR_self]
      exact BitVec.extractLsb'_append_eq_right
    · rw [State.getR_setR_self]
      exact BitVec.extractLsb'_append_eq_left
  · exact ⟨_, (hload .word).trans (loadInto_word_eq_next.mpr ⟨v, hv, rfl⟩), State.getR_setR_self _ d v,
      transfers_of_frame (setR_frame _ d _) rfl rfl rfl⟩
  · refine ⟨_, (hload .double).trans (loadInto_double_eq_next.mpr ⟨hd, v, hv, rfl⟩), ?_,
      transfers_of_frame (setRR_frame _ d _) rfl rfl rfl⟩
    rw [State.getR_setRR_low, State.getR_setRR_high, append_extract_halves]
  · rw [hload .double, loadInto, hd]
    rfl

/-- Settles O59: both forms update the pointer alike and need no circular check. -/
theorem autoIncrementAddsModifier : Obligations.AutoIncrementAddsModifier := by
  intro d rx u o s v m p hp
  have hauto : loadAddress (.autoIncrement rx u) o s = p := hp.symm
  have hbrev : loadAddress (.bitReversed rx u) o s = o.bitReverse p := congrArg o.bitReverse hp.symm
  refine ⟨hauto, hbrev, fun hm => ?_⟩
  have hform : pointerUpdate m o s = some (rx, s.getR rx + (if u = 0 then s.m0 else s.m1)) ∧ circularAllowed m s = true := by
    rcases hm with rfl | rfl <;> exact ⟨rfl, rfl⟩
  obtain ⟨hpointer, hallowed⟩ := hform
  exact ⟨contractLoad_word_through_pointer hpointer hallowed, fun w hd => contractLoad_into_pointer hpointer hd⟩

/-- Settles O60: the pointer moves to the circular pointer, which is the sum where that is inside and inside in any case. -/
theorem circularLoadStaysInItsBuffer : Obligations.CircularLoadStaysInItsBuffer := by
  intro d rx imm step modifier start u o s v m hmod hstart hm
  have hform : pointerUpdate m o s = some (rx, circularPointer o.wrap (circularOperands rx step u s)) ∧
      circularAllowed m s = circPlain modifier ∧
      loadAddress m o s = if o.incrementFirst then circularPointer o.wrap (circularOperands rx step u s) else s.getR rx := by
    subst hmod
    rcases hm with ⟨rfl, rfl⟩ | ⟨rfl, rfl⟩ <;> exact ⟨rfl, rfl, rfl⟩
  obtain ⟨hpointer, hallowed, haddr⟩ := hform
  have hops : circularOperands rx step u s = ⟨s.getR rx, step, start, circLength modifier⟩ := by
    rw [hmod, hstart]
    rfl
  rw [hops] at hpointer haddr
  refine ⟨fun w hd => contractLoad_into_pointer hpointer hd, fun hd hbits => ?_, fun hd hbits hv => ?_⟩
  · have hplain : circularAllowed m s = false := by simp [hallowed, circPlain, hbits]
    rw [contractLoad, hpointer, hplain, if_neg (by simpa [loadDests] using Ne.symm hd)]
    rfl
  · have hplain : circularAllowed m s = true := by simp [hallowed, circPlain, hbits]
    obtain ⟨t, ht, htd, htx, hframe⟩ := contractLoad_word_through_pointer hpointer hplain hd hv
    refine ⟨t, ht, htd, hframe, by rw [haddr, htx], fun hin => ?_, fun hlen => ?_⟩
    · rw [htx]
      exact circularPointer_of_inside ((CircularOperands.inside_iff _ _).mpr hin)
    · rw [htx]
      exact (CircularOperands.inside_iff _ _).mp (circularPointer_inside o.wrap _ hlen)

/-! ### System instructions -/

/-- Settles O56: the completion and the engine opened. -/
theorem prefetchTouchesNoRegister : Obligations.PrefetchTouchesNoRegister := fun s =>
  ⟨_, rfl, rfl, (retire_frame s).trans (pc_prefetchOpen_frame _ s.nextPc true), counted_iff.mpr rfl, rfl⟩

/-- Settles O57: the new enables are those in effect, so no draw is left. -/
theorem isyncPutsEnablesInEffect : Obligations.IsyncPutsEnablesInEffect := by
  intro s
  refine ⟨_, rfl, rfl, governingEnables_of_eq rfl, fun _ => rfl, fun c => ?_, rfl,
    ⟨⟨rfl, rfl, rfl, rfl⟩, rfl, rfl, rfl, rfl, rfl⟩, fun _ => rfl, counted_iff.mpr rfl, rfl⟩
  cases c
  case p30 => exact stored_p30_congr rfl
  all_goals rfl

end Sys2Proof.Proofs
end
